-- ==== Sys2Proof/Word.lean ====
section
/-! DEFINITION. The words of the machine (spec 00_scope.md R5, R7, R8): 32-bit registers, addresses
and instruction words, 8-bit bytes, and the bit fields of an instruction word. -/

namespace Sys2Proof

/-- A register value, an address or an instruction word (R5). -/
abbrev Word := BitVec 32

/-- The unit of memory (R5, R40). -/
abbrev Byte := BitVec 8

/-- The `rs`, `rt` and `rd` fields: the number of a general register (R20, R81, R82). -/
abbrev RegIdx := BitVec 5

/-- The `shamt` field (R81). -/
abbrev Shamt := BitVec 5

/-- The 16-bit `imm` field of an I-format word (R82). -/
abbrev Imm := BitVec 16

/-- The 26-bit pseudo-address of a J-format word (R83), and the undecoded bits of a refused one (R231). -/
abbrev Target := BitVec 26

end Sys2Proof
end

