-- ==== Sys2Proof/Config.lean ====
section
/-! DEFINITION. What the spec takes as an argument of the model and not as state: the parameters of
00_scope.md R6 at their defaults, and the answers of devices that the spec leaves to the device
(20_memory.md R42, 93_implementation_defined.md U8), which are free values. -/

namespace Sys2Proof

/-- The width of one access: 1, 2 or 4 bytes (R5, R41, R59). -/
inductive Width where
  | byte | half | word
  deriving DecidableEq, Repr

/-- How many bytes an access of this width moves. -/
def Width.bytes : Width → Nat
  | .byte => 1
  | .half => 2
  | .word => 4

/-- One operation on an Addressable Device (R41): the six operations are the two constructors at the
three widths. `l` is the device-local address, `data` the bytes of a write, lowest address first. -/
inductive DeviceOp where
  | read (n : Width) (l : Word)
  | write (n : Width) (l : Word) (data : List Byte)
  deriving DecidableEq, Repr

/-- What a device may signal instead of answering (R42, R47). -/
inductive DeviceSignal where
  | outOfBounds
  | unsupportedOperation
  deriving DecidableEq, Repr

/-- The settings of `SLTIU_IMM_EXT` (R6, R164). -/
inductive ImmExt where
  | zero | sign
  deriving DecidableEq, Repr

/-- The settings of `DIV_OVERFLOW` (R6, R143). -/
inductive DivOverflow where
  | wrap | refuse
  deriving DecidableEq, Repr

/-- `RESET_PC` (R6, D17). DESIGN CHOICE, log 1; unsafe: the source names no entry point. -/
def Config.resetPc : Word := 0x00000000#32

/-- `RESET_REGS` (R6, D17): what x[1..31], hi and lo hold at reset. DESIGN CHOICE, log 2; unsafe. -/
def Config.resetRegs : Word := 0x00000000#32

/-- `MEM_SIZE` as the spec's test platform sets it (R6, D23). DESIGN CHOICE, log 3; unsafe. -/
def Config.memSize : Nat := 0x1000

/-- `BGEZ_TAKEN_AT_ZERO` (R6, R207, D13). DESIGN CHOICE, log 9; unsafe. -/
def Config.bgezTakenAtZero : Bool := false

/-- `SLTIU_IMM_EXT` (R6, R164, D8). DESIGN CHOICE, log 10; unsafe. -/
def Config.sltiuImmExt : ImmExt := .zero

/-- `DIV_OVERFLOW` (R6, R143, D10). DESIGN CHOICE, log 11; unsafe. -/
def Config.divOverflow : DivOverflow := .wrap

/-- What a byte of a Memory Device that nothing has written reads as: 0x00, "all zero" (R44). -/
def Config.unlistedByte : Byte := 0x00#8

/-- FREE VALUE (U8; DESIGN CHOICE, log 5): what the device named `id`, on which `history` was performed
before, signals to `op`; `none` when it answers. Nothing constrains it. -/
opaque Config.deviceSignal (id : Nat) (history : List DeviceOp) (op : DeviceOp) : Option DeviceSignal

/-- FREE VALUE (U8; DESIGN CHOICE, log 5): the `i`-th byte that device answers to the read `op`. -/
opaque Config.deviceByte (id : Nat) (history : List DeviceOp) (op : DeviceOp) (i : Nat) : Byte

end Sys2Proof
end

