-- ==== Sys2Proof/Machine/Bytes.lean ====
section
/-! DEFINITION. Byte order: big-endian for data and for instruction fetch alike (20_memory.md R43, R55
to R57). -/

namespace Sys2Proof

/-- The unsigned number that a byte sequence stands for, first byte most significant (R55). -/
def assembleBytes (bs : List Byte) : Word :=
  bs.foldl (fun acc b => acc <<< 8 ||| b.setWidth 32) 0#32

/-- The low bytes of `v` that an access of this width moves, most significant first (R56). -/
def splitBytes (n : Width) (v : Word) : List Byte :=
  match n with
  | .byte => [v.extractLsb' 0 8]
  | .half => [v.extractLsb' 8 8, v.extractLsb' 0 8]
  | .word => [v.extractLsb' 24 8, v.extractLsb' 16 8, v.extractLsb' 8 8, v.extractLsb' 0 8]

end Sys2Proof
end

