-- ==== Sys2Proof/Syntax.lean ====
section
/-! DEFINITION. The instructions of the machine: one constructor for each row of
spec/opcode_table.json, 53 executable instructions and 16 refused ones (30_encoding.md R88).

A constructor keeps every field of its word, also those the instruction does not use (R94): a fatal
condition reports the whole word (60_exceptions.md R251 to R257), and the word is not state
(10_state.md R30), so a meaning recomputes it by `encode`. DESIGN CHOICE, log 8; safe. -/

namespace Sys2Proof

inductive Instr where
  -- R-format, op = 0 (R81, R87)
  | add (rs rt rd : RegIdx) (shamt : Shamt)
  | addu (rs rt rd : RegIdx) (shamt : Shamt)
  | sub (rs rt rd : RegIdx) (shamt : Shamt)
  | subu (rs rt rd : RegIdx) (shamt : Shamt)
  | and (rs rt rd : RegIdx) (shamt : Shamt)
  | or (rs rt rd : RegIdx) (shamt : Shamt)
  | xor (rs rt rd : RegIdx) (shamt : Shamt)
  | nor (rs rt rd : RegIdx) (shamt : Shamt)
  | slt (rs rt rd : RegIdx) (shamt : Shamt)
  | sltu (rs rt rd : RegIdx) (shamt : Shamt)
  | sll (rs rt rd : RegIdx) (shamt : Shamt)
  | srl (rs rt rd : RegIdx) (shamt : Shamt)
  | sra (rs rt rd : RegIdx) (shamt : Shamt)
  | sllv (rs rt rd : RegIdx) (shamt : Shamt)
  | srlv (rs rt rd : RegIdx) (shamt : Shamt)
  | srav (rs rt rd : RegIdx) (shamt : Shamt)
  | mult (rs rt rd : RegIdx) (shamt : Shamt)
  | multu (rs rt rd : RegIdx) (shamt : Shamt)
  | div (rs rt rd : RegIdx) (shamt : Shamt)
  | divu (rs rt rd : RegIdx) (shamt : Shamt)
  | mfhi (rs rt rd : RegIdx) (shamt : Shamt)
  | mflo (rs rt rd : RegIdx) (shamt : Shamt)
  | mthi (rs rt rd : RegIdx) (shamt : Shamt)
  | mtlo (rs rt rd : RegIdx) (shamt : Shamt)
  | jr (rs rt rd : RegIdx) (shamt : Shamt)
  | jalr (rs rt rd : RegIdx) (shamt : Shamt)
  | syscall (rs rt rd : RegIdx) (shamt : Shamt)
  -- REGIMM, op = 1 (R82, R89)
  | bltz (rs : RegIdx) (imm : Imm)
  | bgez (rs : RegIdx) (imm : Imm)
  | bltzal (rs : RegIdx) (imm : Imm)
  | bgezal (rs : RegIdx) (imm : Imm)
  -- I-format (R82, R86)
  | beq (rs rt : RegIdx) (imm : Imm)
  | bne (rs rt : RegIdx) (imm : Imm)
  | blez (rs rt : RegIdx) (imm : Imm)
  | bgtz (rs rt : RegIdx) (imm : Imm)
  | addi (rs rt : RegIdx) (imm : Imm)
  | addiu (rs rt : RegIdx) (imm : Imm)
  | slti (rs rt : RegIdx) (imm : Imm)
  | sltiu (rs rt : RegIdx) (imm : Imm)
  | andi (rs rt : RegIdx) (imm : Imm)
  | ori (rs rt : RegIdx) (imm : Imm)
  | xori (rs rt : RegIdx) (imm : Imm)
  | lui (rs rt : RegIdx) (imm : Imm)
  | lb (rs rt : RegIdx) (imm : Imm)
  | lhw (rs rt : RegIdx) (imm : Imm)
  | lw (rs rt : RegIdx) (imm : Imm)
  | lbu (rs rt : RegIdx) (imm : Imm)
  | lhwu (rs rt : RegIdx) (imm : Imm)
  | sb (rs rt : RegIdx) (imm : Imm)
  | shw (rs rt : RegIdx) (imm : Imm)
  | sw (rs rt : RegIdx) (imm : Imm)
  -- J-format (R83, R86)
  | j (target : Target)
  | jal (target : Target)
  -- recognised and refused; no field is decoded (R91, R231)
  | lwl (bits : Target)
  | lwr (bits : Target)
  | swl (bits : Target)
  | swr (bits : Target)
  | lwc0 (bits : Target)
  | lwc1 (bits : Target)
  | lwc2 (bits : Target)
  | lwc3 (bits : Target)
  | swc0 (bits : Target)
  | swc1 (bits : Target)
  | swc2 (bits : Target)
  | swc3 (bits : Target)
  | cop0 (bits : Target)
  | cop1 (bits : Target)
  | cop2 (bits : Target)
  | cop3 (bits : Target)
  deriving DecidableEq, Repr

end Sys2Proof
end

