-- ==== Sys2Proof/WellFormed.lean ====
section
/-! DEFINITION. Well-formed instructions. Every field has the width of its bit field, so every term of
`Instr` has an encoding; what can still be wrong with one is a destination that the decode-time test
refuses: register 0 (10_state.md R22; 30_encoding.md R92, R93). -/

namespace Sys2Proof

/-- The field the zero-destination test looks at: `rd` for every R-format function but SYSCALL (R92),
`rt` for an I-format instruction that writes `x[rt]` (R93), none for any other instruction. -/
def Instr.testedField : Instr → Option RegIdx
  | .add _ _ rd _ => some rd
  | .addu _ _ rd _ => some rd
  | .sub _ _ rd _ => some rd
  | .subu _ _ rd _ => some rd
  | .and _ _ rd _ => some rd
  | .or _ _ rd _ => some rd
  | .xor _ _ rd _ => some rd
  | .nor _ _ rd _ => some rd
  | .slt _ _ rd _ => some rd
  | .sltu _ _ rd _ => some rd
  | .sll _ _ rd _ => some rd
  | .srl _ _ rd _ => some rd
  | .sra _ _ rd _ => some rd
  | .sllv _ _ rd _ => some rd
  | .srlv _ _ rd _ => some rd
  | .srav _ _ rd _ => some rd
  | .mult _ _ rd _ => some rd
  | .multu _ _ rd _ => some rd
  | .div _ _ rd _ => some rd
  | .divu _ _ rd _ => some rd
  | .mfhi _ _ rd _ => some rd
  | .mflo _ _ rd _ => some rd
  | .mthi _ _ rd _ => some rd
  | .mtlo _ _ rd _ => some rd
  | .jr _ _ rd _ => some rd
  | .jalr _ _ rd _ => some rd
  | .syscall _ _ _ _ => none
  | .bltz _ _ => none
  | .bgez _ _ => none
  | .bltzal _ _ => none
  | .bgezal _ _ => none
  | .beq _ _ _ => none
  | .bne _ _ _ => none
  | .blez _ _ _ => none
  | .bgtz _ _ _ => none
  | .addi _ rt _ => some rt
  | .addiu _ rt _ => some rt
  | .slti _ rt _ => some rt
  | .sltiu _ rt _ => some rt
  | .andi _ rt _ => some rt
  | .ori _ rt _ => some rt
  | .xori _ rt _ => some rt
  | .lui _ rt _ => some rt
  | .lb _ rt _ => some rt
  | .lhw _ rt _ => some rt
  | .lw _ rt _ => some rt
  | .lbu _ rt _ => some rt
  | .lhwu _ rt _ => some rt
  | .sb _ _ _ => none
  | .shw _ _ _ => none
  | .sw _ _ _ => none
  | .j _ => none
  | .jal _ => none
  | .lwl _ => none
  | .lwr _ => none
  | .swl _ => none
  | .swr _ => none
  | .lwc0 _ => none
  | .lwc1 _ => none
  | .lwc2 _ => none
  | .lwc3 _ => none
  | .swc0 _ => none
  | .swc1 _ => none
  | .swc2 _ => none
  | .swc3 _ => none
  | .cop0 _ => none
  | .cop1 _ => none
  | .cop2 _ => none
  | .cop3 _ => none

/-- The instruction passes the zero-destination test of R92 and R93. -/
def Instr.wellFormed (i : Instr) : Bool :=
  match i.testedField with
  | some r => r != 0#5
  | none => true

end Sys2Proof
end

