-- ==== Sys2Proof/Decode.lean ====
section
/-! DEFINITION. Decoding an instruction word and, after it, encoding one (30_encoding.md R80 to R91).
The numeric codes are those of the tables R86, R87, R89, which take them from MIPS I (D1; log 12).
`decodeWord` does not make the zero-destination test of R92 and R93: the test is the first thing a
meaning does, so it still comes after the look-up and before everything else (R99). -/

namespace Sys2Proof

/-- Why a word is no instruction; the first three raise `IllegalInstruction` (R90, R251). -/
inductive DecodeError where
  /-- A primary opcode that R86 marks illegal. -/
  | illegalOpcode (op : BitVec 6)
  /-- A function code that R87 marks illegal, with op = 0. -/
  | illegalFunction (funct : BitVec 6)
  /-- An `rt` code that R89 marks illegal, with op = 1 (D20). -/
  | illegalRegimm (rt : BitVec 5)
  /-- Not the four bytes of one word (R80); never answered to a fetched word. -/
  | notOneWord (length : Nat)
  deriving DecidableEq, Repr

/-! ### The bit fields of a word (R80 to R83) -/

def fieldOp (w : Word) : BitVec 6 := w.extractLsb' 26 6
def fieldRs (w : Word) : RegIdx := w.extractLsb' 21 5
def fieldRt (w : Word) : RegIdx := w.extractLsb' 16 5
def fieldRd (w : Word) : RegIdx := w.extractLsb' 11 5
def fieldShamt (w : Word) : Shamt := w.extractLsb' 6 5
def fieldFunct (w : Word) : BitVec 6 := w.extractLsb' 0 6
def fieldImm (w : Word) : Imm := w.extractLsb' 0 16
def fieldTarget (w : Word) : Target := w.extractLsb' 0 26

/-- The R-format function map, R87. -/
def decodeSpecial (funct : BitVec 6) (rs rt rd : RegIdx) (shamt : Shamt) : Except DecodeError Instr :=
  match funct with
  | 0x00#6 => .ok (.sll rs rt rd shamt)
  | 0x02#6 => .ok (.srl rs rt rd shamt)
  | 0x03#6 => .ok (.sra rs rt rd shamt)
  | 0x04#6 => .ok (.sllv rs rt rd shamt)
  | 0x06#6 => .ok (.srlv rs rt rd shamt)
  | 0x07#6 => .ok (.srav rs rt rd shamt)
  | 0x08#6 => .ok (.jr rs rt rd shamt)
  | 0x09#6 => .ok (.jalr rs rt rd shamt)
  | 0x0C#6 => .ok (.syscall rs rt rd shamt)
  | 0x10#6 => .ok (.mfhi rs rt rd shamt)
  | 0x11#6 => .ok (.mthi rs rt rd shamt)
  | 0x12#6 => .ok (.mflo rs rt rd shamt)
  | 0x13#6 => .ok (.mtlo rs rt rd shamt)
  | 0x18#6 => .ok (.mult rs rt rd shamt)
  | 0x19#6 => .ok (.multu rs rt rd shamt)
  | 0x1A#6 => .ok (.div rs rt rd shamt)
  | 0x1B#6 => .ok (.divu rs rt rd shamt)
  | 0x20#6 => .ok (.add rs rt rd shamt)
  | 0x21#6 => .ok (.addu rs rt rd shamt)
  | 0x22#6 => .ok (.sub rs rt rd shamt)
  | 0x23#6 => .ok (.subu rs rt rd shamt)
  | 0x24#6 => .ok (.and rs rt rd shamt)
  | 0x25#6 => .ok (.or rs rt rd shamt)
  | 0x26#6 => .ok (.xor rs rt rd shamt)
  | 0x27#6 => .ok (.nor rs rt rd shamt)
  | 0x2A#6 => .ok (.slt rs rt rd shamt)
  | 0x2B#6 => .ok (.sltu rs rt rd shamt)
  | _ => .error (.illegalFunction funct)

/-- The REGIMM map, R89. -/
def decodeRegimm (rt : BitVec 5) (rs : RegIdx) (imm : Imm) : Except DecodeError Instr :=
  match rt with
  | 0x00#5 => .ok (.bltz rs imm)
  | 0x01#5 => .ok (.bgez rs imm)
  | 0x10#5 => .ok (.bltzal rs imm)
  | 0x11#5 => .ok (.bgezal rs imm)
  | _ => .error (.illegalRegimm rt)

/-- The decode procedure of R85 with the primary opcode map R86. -/
def decodeWord (w : Word) : Except DecodeError Instr :=
  match fieldOp w with
  | 0x00#6 => decodeSpecial (fieldFunct w) (fieldRs w) (fieldRt w) (fieldRd w) (fieldShamt w)
  | 0x01#6 => decodeRegimm (fieldRt w) (fieldRs w) (fieldImm w)
  | 0x02#6 => .ok (.j (fieldTarget w))
  | 0x03#6 => .ok (.jal (fieldTarget w))
  | 0x04#6 => .ok (.beq (fieldRs w) (fieldRt w) (fieldImm w))
  | 0x05#6 => .ok (.bne (fieldRs w) (fieldRt w) (fieldImm w))
  | 0x06#6 => .ok (.blez (fieldRs w) (fieldRt w) (fieldImm w))
  | 0x07#6 => .ok (.bgtz (fieldRs w) (fieldRt w) (fieldImm w))
  | 0x08#6 => .ok (.addi (fieldRs w) (fieldRt w) (fieldImm w))
  | 0x09#6 => .ok (.addiu (fieldRs w) (fieldRt w) (fieldImm w))
  | 0x0A#6 => .ok (.slti (fieldRs w) (fieldRt w) (fieldImm w))
  | 0x0B#6 => .ok (.sltiu (fieldRs w) (fieldRt w) (fieldImm w))
  | 0x0C#6 => .ok (.andi (fieldRs w) (fieldRt w) (fieldImm w))
  | 0x0D#6 => .ok (.ori (fieldRs w) (fieldRt w) (fieldImm w))
  | 0x0E#6 => .ok (.xori (fieldRs w) (fieldRt w) (fieldImm w))
  | 0x0F#6 => .ok (.lui (fieldRs w) (fieldRt w) (fieldImm w))
  | 0x10#6 => .ok (.cop0 (fieldTarget w))
  | 0x11#6 => .ok (.cop1 (fieldTarget w))
  | 0x12#6 => .ok (.cop2 (fieldTarget w))
  | 0x13#6 => .ok (.cop3 (fieldTarget w))
  | 0x20#6 => .ok (.lb (fieldRs w) (fieldRt w) (fieldImm w))
  | 0x21#6 => .ok (.lhw (fieldRs w) (fieldRt w) (fieldImm w))
  | 0x22#6 => .ok (.lwl (fieldTarget w))
  | 0x23#6 => .ok (.lw (fieldRs w) (fieldRt w) (fieldImm w))
  | 0x24#6 => .ok (.lbu (fieldRs w) (fieldRt w) (fieldImm w))
  | 0x25#6 => .ok (.lhwu (fieldRs w) (fieldRt w) (fieldImm w))
  | 0x26#6 => .ok (.lwr (fieldTarget w))
  | 0x28#6 => .ok (.sb (fieldRs w) (fieldRt w) (fieldImm w))
  | 0x29#6 => .ok (.shw (fieldRs w) (fieldRt w) (fieldImm w))
  | 0x2A#6 => .ok (.swl (fieldTarget w))
  | 0x2B#6 => .ok (.sw (fieldRs w) (fieldRt w) (fieldImm w))
  | 0x2E#6 => .ok (.swr (fieldTarget w))
  | 0x30#6 => .ok (.lwc0 (fieldTarget w))
  | 0x31#6 => .ok (.lwc1 (fieldTarget w))
  | 0x32#6 => .ok (.lwc2 (fieldTarget w))
  | 0x33#6 => .ok (.lwc3 (fieldTarget w))
  | 0x38#6 => .ok (.swc0 (fieldTarget w))
  | 0x39#6 => .ok (.swc1 (fieldTarget w))
  | 0x3A#6 => .ok (.swc2 (fieldTarget w))
  | 0x3B#6 => .ok (.swc3 (fieldTarget w))
  | _ => .error (.illegalOpcode (fieldOp w))

/-- Decoding bytes as they lie in memory, lowest address first (R80: one big-endian word). -/
def decodeBytes : List Byte → Except DecodeError Instr
  | [b0, b1, b2, b3] => decodeWord (assembleBytes [b0, b1, b2, b3])
  | bs => .error (.notOneWord bs.length)

/-! ### Encoding -/

/-- An R-format word (R81). -/
def encodeR (funct : BitVec 6) (rs rt rd : RegIdx) (shamt : Shamt) : Word :=
  0x00#6 ++ rs ++ rt ++ rd ++ shamt ++ funct

/-- An I-format word (R82); in the REGIMM group `rt` is the second-level opcode. -/
def encodeI (op : BitVec 6) (rs rt : BitVec 5) (imm : Imm) : Word :=
  op ++ rs ++ rt ++ imm

/-- A J-format word (R83), and a refused word, whose bits 25..0 are not decoded (R231). -/
def encodeJ (op : BitVec 6) (target : Target) : Word :=
  op ++ target

/-- The word of an instruction, from the tables R86, R87, R89. -/
def encode : Instr → Word
  | .add rs rt rd shamt => encodeR 0x20#6 rs rt rd shamt
  | .addu rs rt rd shamt => encodeR 0x21#6 rs rt rd shamt
  | .sub rs rt rd shamt => encodeR 0x22#6 rs rt rd shamt
  | .subu rs rt rd shamt => encodeR 0x23#6 rs rt rd shamt
  | .and rs rt rd shamt => encodeR 0x24#6 rs rt rd shamt
  | .or rs rt rd shamt => encodeR 0x25#6 rs rt rd shamt
  | .xor rs rt rd shamt => encodeR 0x26#6 rs rt rd shamt
  | .nor rs rt rd shamt => encodeR 0x27#6 rs rt rd shamt
  | .slt rs rt rd shamt => encodeR 0x2A#6 rs rt rd shamt
  | .sltu rs rt rd shamt => encodeR 0x2B#6 rs rt rd shamt
  | .sll rs rt rd shamt => encodeR 0x00#6 rs rt rd shamt
  | .srl rs rt rd shamt => encodeR 0x02#6 rs rt rd shamt
  | .sra rs rt rd shamt => encodeR 0x03#6 rs rt rd shamt
  | .sllv rs rt rd shamt => encodeR 0x04#6 rs rt rd shamt
  | .srlv rs rt rd shamt => encodeR 0x06#6 rs rt rd shamt
  | .srav rs rt rd shamt => encodeR 0x07#6 rs rt rd shamt
  | .mult rs rt rd shamt => encodeR 0x18#6 rs rt rd shamt
  | .multu rs rt rd shamt => encodeR 0x19#6 rs rt rd shamt
  | .div rs rt rd shamt => encodeR 0x1A#6 rs rt rd shamt
  | .divu rs rt rd shamt => encodeR 0x1B#6 rs rt rd shamt
  | .mfhi rs rt rd shamt => encodeR 0x10#6 rs rt rd shamt
  | .mflo rs rt rd shamt => encodeR 0x12#6 rs rt rd shamt
  | .mthi rs rt rd shamt => encodeR 0x11#6 rs rt rd shamt
  | .mtlo rs rt rd shamt => encodeR 0x13#6 rs rt rd shamt
  | .jr rs rt rd shamt => encodeR 0x08#6 rs rt rd shamt
  | .jalr rs rt rd shamt => encodeR 0x09#6 rs rt rd shamt
  | .syscall rs rt rd shamt => encodeR 0x0C#6 rs rt rd shamt
  | .bltz rs imm => encodeI 0x01#6 rs 0x00#5 imm
  | .bgez rs imm => encodeI 0x01#6 rs 0x01#5 imm
  | .bltzal rs imm => encodeI 0x01#6 rs 0x10#5 imm
  | .bgezal rs imm => encodeI 0x01#6 rs 0x11#5 imm
  | .beq rs rt imm => encodeI 0x04#6 rs rt imm
  | .bne rs rt imm => encodeI 0x05#6 rs rt imm
  | .blez rs rt imm => encodeI 0x06#6 rs rt imm
  | .bgtz rs rt imm => encodeI 0x07#6 rs rt imm
  | .addi rs rt imm => encodeI 0x08#6 rs rt imm
  | .addiu rs rt imm => encodeI 0x09#6 rs rt imm
  | .slti rs rt imm => encodeI 0x0A#6 rs rt imm
  | .sltiu rs rt imm => encodeI 0x0B#6 rs rt imm
  | .andi rs rt imm => encodeI 0x0C#6 rs rt imm
  | .ori rs rt imm => encodeI 0x0D#6 rs rt imm
  | .xori rs rt imm => encodeI 0x0E#6 rs rt imm
  | .lui rs rt imm => encodeI 0x0F#6 rs rt imm
  | .lb rs rt imm => encodeI 0x20#6 rs rt imm
  | .lhw rs rt imm => encodeI 0x21#6 rs rt imm
  | .lw rs rt imm => encodeI 0x23#6 rs rt imm
  | .lbu rs rt imm => encodeI 0x24#6 rs rt imm
  | .lhwu rs rt imm => encodeI 0x25#6 rs rt imm
  | .sb rs rt imm => encodeI 0x28#6 rs rt imm
  | .shw rs rt imm => encodeI 0x29#6 rs rt imm
  | .sw rs rt imm => encodeI 0x2B#6 rs rt imm
  | .j target => encodeJ 0x02#6 target
  | .jal target => encodeJ 0x03#6 target
  | .lwl bits => encodeJ 0x22#6 bits
  | .lwr bits => encodeJ 0x26#6 bits
  | .swl bits => encodeJ 0x2A#6 bits
  | .swr bits => encodeJ 0x2E#6 bits
  | .lwc0 bits => encodeJ 0x30#6 bits
  | .lwc1 bits => encodeJ 0x31#6 bits
  | .lwc2 bits => encodeJ 0x32#6 bits
  | .lwc3 bits => encodeJ 0x33#6 bits
  | .swc0 bits => encodeJ 0x38#6 bits
  | .swc1 bits => encodeJ 0x39#6 bits
  | .swc2 bits => encodeJ 0x3A#6 bits
  | .swc3 bits => encodeJ 0x3B#6 bits
  | .cop0 bits => encodeJ 0x10#6 bits
  | .cop1 bits => encodeJ 0x11#6 bits
  | .cop2 bits => encodeJ 0x12#6 bits
  | .cop3 bits => encodeJ 0x13#6 bits

/-- The instruction the decoder reads from a word numbered as spec/opcode_table.json numbers it. Every
instruction is one 32-bit word (R80), so bits above 31 do not exist; the word is laid out as its
four bytes, most significant first, and given to `decodeBytes`. -/
def decodeTableWord (nbits w : Nat) : Option Instr :=
  match decodeBytes (splitBytes .word (BitVec.ofNat 32 (w % 2 ^ nbits))) with
  | .ok i => some i
  | .error _ => none

end Sys2Proof
end

