-- ==== Sys2Proof/Machine/State.lean ====
section
/-! DEFINITION. The state of the machine (10_state.md section 1), the reasons a step can stop, and the
state after reset (10_state.md R32, 70_reset_and_hazards.md R280). Plain data throughout. -/

namespace Sys2Proof.Machine

/-- The names of a device's six operations (R41), as `UnsupportedOperation` reports them (R255). -/
inductive OpName where
  | getByte | getHalfWord | getWord
  | writeByte | writeHalfWord | writeWord
  deriving DecidableEq, Repr

/-- The seven fatal conditions (R250: the list is closed), each with its `info` (R251 to R257, D18). -/
inductive FatalCondition where
  /-- R251: undecodable opcode, function or REGIMM code; the word. -/
  | illegalInstruction (w : Word)
  /-- R252: the zero-destination test failed; the word. -/
  | zeroRegisterWrite (w : Word)
  /-- R253: no region covers the global address. -/
  | unmappedAddress (a : Word)
  /-- R254: outside the device's extent; the device-local address. -/
  | outOfBounds (l : Word)
  /-- R255: an operation the device does not implement; the operation and the device-local address. -/
  | unsupportedOperation (op : OpName) (l : Word)
  /-- R256: DIV or DIVU with a zero divisor; the word. -/
  | divideByZero (w : Word)
  /-- R257: a refused opcode; the word. -/
  | notImplemented (w : Word)
  deriving DecidableEq, Repr

/-- The run status (R28). -/
inductive RunStatus where
  | running
  | halted
  | fault (c : FatalCondition)
  deriving DecidableEq, Repr

/-- The bytes of a Memory Device, by device-local address: the cells that differ from
`Config.unlistedByte`, addresses strictly rising (`Memory.wf`). -/
abbrev Memory := List Host.Cell

/-- A Memory Device (R44): a flat, fixed-size array of bytes. -/
structure MemoryDevice where
  size : Nat
  mem : Memory
  deriving DecidableEq, Repr

/-- An Addressable Device (R31, R41). Of a device other than a Memory Device the spec gives only the
interface (R42, U8): its state is the list of operations performed on it so far, oldest first, and its
answers are the free values of Config. DESIGN CHOICE, log 5. -/
inductive Device where
  | memory (d : MemoryDevice)
  | other (id : Nat) (history : List DeviceOp)
  deriving DecidableEq, Repr

/-- A region (R29, R48): it covers the global addresses from `start` to `last`, both inclusive (the
spec writes `end` for `last`). `handle` is the model's own field: what `map` returned for it (log 6). -/
structure Region where
  handle : Nat
  device : Device
  start : Word
  last : Word
  remap : Bool
  deriving DecidableEq, Repr

/-- The whole state of the machine. -/
structure State where
  /-- x[0] to x[31] (R20); slot 0 is never read nor written (R21, R22). -/
  regs : Vector Word 32
  /-- The program counter (R23): between steps, the address of the next instruction. -/
  pc : Word
  /-- The accumulator registers (R26). -/
  hi : Word
  lo : Word
  /-- The run status (R28). -/
  status : RunStatus
  /-- The Memory Mapper's region table, in search order (R29, R51). -/
  regions : List Region
  /-- The model's own field: the handle the next `map` hands out (log 6). -/
  nextHandle : Nat
  deriving DecidableEq, Repr

/-- Why no step is taken. Raised by `step` alone, on a machine whose status is not Running (R28, R284:
a stopped machine takes no step); no instruction's meaning ends in one. Safe: the model stops where
the machine has stopped for good (R261). -/
inductive Fault where
  /-- The run ended by the SYSCALL halt (R230). -/
  | halted
  /-- The run ended by this fatal condition (R250). -/
  | fatal (c : FatalCondition)
  deriving DecidableEq, Repr

/-- What the model gives no meaning. -/
inductive Refusal where
  /-- An instruction without a meaning yet, raised by `exec`'s arm for it; safe. No arm raises it. -/
  | notModelled (mnemonic : String)
  /-- DIV of 0x80000000 by 0xFFFFFFFF under the setting `DIV_OVERFLOW = refuse` (R6, R143, U4), raised by
  `execDiv`; safe. Not reached under the default setting `wrap`. -/
  | divOverflow
  deriving DecidableEq, Repr

/-- `PLATFORM_REGIONS` (R6) at its default: none; the region table is empty until the host maps regions
(R280). DESIGN CHOICE, log 3. -/
def Config.platformRegions : List Region := []

/-- The machine right after reset (R32, R280). -/
def State.reset : State where
  regs := (Vector.replicate 32 Config.resetRegs).set 0 0#32
  pc := Config.resetPc
  hi := Config.resetRegs
  lo := Config.resetRegs
  status := .running
  regions := Config.platformRegions
  nextHandle := Config.platformRegions.length

end Sys2Proof.Machine
end

