-- ==== Sys2Proof/Machine/Memory.lean ====
section
/-! DEFINITION. Memory as a canonical list of cells, and the Memory Device over it (20_memory.md R44 to
R47). -/

namespace Sys2Proof.Machine

/-- The canonical form: addresses strictly rising, and no cell that holds what an unlisted address reads
as. Equal memories are then equal lists. -/
abbrev Memory.wf (m : Memory) : Prop :=
  m.Pairwise (fun c d => c.1 < d.1) ∧ ∀ c ∈ m, c.2 ≠ Config.unlistedByte

/-- The byte at address `k`. -/
def Memory.read (m : Memory) (k : Nat) : Byte :=
  match m with
  | [] => Config.unlistedByte
  | (a, b) :: rest => if a = k then b else Memory.read rest k

/-- `m` with the byte at address `k` set to `v`, in canonical form again. -/
def Memory.write (m : Memory) (k : Nat) (v : Byte) : Memory :=
  match m with
  | [] => if v = Config.unlistedByte then [] else [(k, v)]
  | (a, b) :: rest =>
    if k < a then (if v = Config.unlistedByte then (a, b) :: rest else (k, v) :: (a, b) :: rest)
    else if k = a then (if v = Config.unlistedByte then rest else (k, v) :: rest)
    else (a, b) :: Memory.write rest k v

/-- The `n` bytes from address `k` on, in storage order (R45). -/
def Memory.readBytes (m : Memory) (k n : Nat) : List Byte :=
  (List.range n).map fun i => m.read (k + i)

/-- The bytes `bs` written from address `k` on (R46). -/
def Memory.writeBytes (m : Memory) (k : Nat) (bs : List Byte) : Memory :=
  match bs with
  | [] => m
  | b :: rest => Memory.writeBytes (m.write k b) (k + 1) rest

/-- `new(size)` (R44): every byte zero. -/
def MemoryDevice.new (size : Nat) : MemoryDevice := { size := size, mem := [] }

/-- A Memory Device in canonical form: its memory is, and lists only addresses below `size`. -/
abbrev MemoryDevice.wf (d : MemoryDevice) : Prop :=
  d.mem.wf ∧ ∀ c ∈ d.mem, c.1 < d.size

/-- The access stays inside `[0, size)`, computed without wrap (R47). -/
abbrev MemoryDevice.inBounds (d : MemoryDevice) (n : Width) (l : Word) : Prop :=
  l.toNat + n.bytes ≤ d.size

/-- A read of the device (R45, R47); it does not change the device. -/
def MemoryDevice.read (d : MemoryDevice) (n : Width) (l : Word) : Except DeviceSignal (List Byte) :=
  if d.inBounds n l then .ok (d.mem.readBytes l.toNat n.bytes) else .error .outOfBounds

/-- A write of the device (R46, R47); one that fails writes none of its bytes. -/
def MemoryDevice.write (d : MemoryDevice) (n : Width) (l : Word) (data : List Byte) :
    Except DeviceSignal MemoryDevice :=
  if d.inBounds n l then .ok { d with mem := d.mem.writeBytes l.toNat data } else .error .outOfBounds

end Sys2Proof.Machine
end

