-- ==== Sys2Proof/Machine/Mapper.lean ====
section
/-! DEFINITION. Addressable Devices and the Memory Mapper (20_memory.md R41, R42, R48 to R54). -/

namespace Sys2Proof.Machine

/-- The name of an operation (R41). -/
def opName : DeviceOp → OpName
  | .read .byte _ => .getByte
  | .read .half _ => .getHalfWord
  | .read .word _ => .getWord
  | .write .byte _ _ => .writeByte
  | .write .half _ _ => .writeHalfWord
  | .write .word _ _ => .writeWord

/-- The device-local address of an operation. -/
def opAddress : DeviceOp → Word
  | .read _ l => l
  | .write _ l _ => l

/-- The fatal condition a device's signal is (R254, R255); the mapper passes it on unchanged (R53). -/
def signalCondition (op : DeviceOp) : DeviceSignal → FatalCondition
  | .outOfBounds => .outOfBounds (opAddress op)
  | .unsupportedOperation => .unsupportedOperation (opName op) (opAddress op)

/-- A device's answer as the mapper gives it to the CPU (R53): any device-level condition unchanged. -/
def passOn (op : DeviceOp) (answer : Except DeviceSignal (List Byte)) :
    Except FatalCondition (List Byte) :=
  match answer with
  | .ok bs => .ok bs
  | .error e => .error (signalCondition op e)

/-- One operation on a Memory Device (R45 to R47): the bytes of a read (none for a write), or a signal,
and the device afterwards. -/
def MemoryDevice.perform (d : MemoryDevice) (op : DeviceOp) :
    Except DeviceSignal (List Byte) × MemoryDevice :=
  match op with
  | .read n l => (d.read n l, d)
  | .write n l data =>
    match d.write n l data with
    | .ok d' => (.ok [], d')
    | .error e => (.error e, d)

/-- What a device other than a Memory Device answers (R42, U8): the free values of Config at its name, at
what was performed on it before, and at the operation. -/
def otherAnswer (id : Nat) (history : List DeviceOp) (op : DeviceOp) : Except DeviceSignal (List Byte) :=
  match Config.deviceSignal id history op with
  | some e => .error e
  | none =>
    match op with
    | .read n _ => .ok ((List.range n.bytes).map (Config.deviceByte id history op))
    | .write _ _ _ => .ok []

/-- One operation on a device (R41). A device other than a Memory Device may change on any operation,
also on one it refuses (R42, R260): the operation joins its history either way. -/
def Device.perform (d : Device) (op : DeviceOp) : Except DeviceSignal (List Byte) × Device :=
  match d with
  | .memory m => ((m.perform op).1, .memory (m.perform op).2)
  | .other id history => (otherAnswer id history op, .other id (history ++ [op]))

/-- The region covers the global address: both ends inclusive, unsigned (R48, R51). -/
def Region.covers (r : Region) (a : Word) : Bool :=
  decide (r.start ≤ a) && decide (a ≤ r.last)

/-- Address resolution (R51): the first region, in current order, that covers the address. -/
def resolve (rs : List Region) (a : Word) : Option Region :=
  rs.find? fun r => r.covers a

/-- Address translation (R52). -/
def Region.translate (r : Region) (a : Word) : Word :=
  if r.remap then a - r.start else a

/-- The mapper's accessors (R53): resolve the address given, translate it, and hand the whole operation,
which `op` builds from the device-local address, to that one device (R54). The answer, and the region
table with that one device as the operation left it. -/
def access (rs : List Region) (a : Word) (op : Word → DeviceOp) :
    Except FatalCondition (List Byte) × List Region :=
  match rs with
  | [] => (.error (.unmappedAddress a), [])
  | r :: rest =>
    if r.covers a then
      let answer := r.device.perform (op (r.translate a))
      (passOn (op (r.translate a)) answer.1, { r with device := answer.2 } :: rest)
    else
      let answer := access rest a op
      (answer.1, r :: answer.2)

/-- The host operation `map` (R49): the new region goes to the front of the search order. Used before
the run only (R70): no step calls it. -/
def State.mapRegion (s : State) (device : Device) (start last : Word) (remap : Bool) : Nat × State :=
  (s.nextHandle,
   { s with
     regions := { handle := s.nextHandle, device, start, last, remap } :: s.regions
     nextHandle := s.nextHandle + 1 })

/-- The host operation `unmap` (R50): the region with that handle is taken out, the others keep their
order. `none` for a handle that names no current region, which the spec gives no meaning (U13, log 6).
What becomes of the device of the region taken out the source does not say (91_not_in_source.md N14): here
it leaves the state with its region, contents and all. DESIGN CHOICE, log 6; unsafe. -/
def State.unmapRegion (s : State) (handle : Nat) : Option State :=
  if s.regions.any fun r => r.handle == handle then
    some { s with regions := s.regions.filter fun r => r.handle != handle }
  else none

/-- The model's own view of one byte of memory, without any operation on a device: the byte of the Memory
Device that the global address resolves to; `none` where no region covers the address, the address is
outside the device, or the device is no Memory Device. Statements about memory are made through it. -/
def peekByte (rs : List Region) (a : Word) : Option Byte :=
  match resolve rs a with
  | some r =>
    match r.device with
    | .memory d => if (r.translate a).toNat < d.size then some (d.mem.read (r.translate a).toNat) else none
    | .other _ _ => none
  | none => none

end Sys2Proof.Machine
end

