-- ==== Sys2Proof/Machine/Ops.lean ====
section
/-! DEFINITION. The primitives through which a rule touches state (00_scope.md R9): registers, pc, hi, lo,
MemRead, MemWrite, raise, halt; and the zero-destination test. -/

namespace Sys2Proof.Machine

/-- The outcome of one instruction. -/
abbrev Result := Host.Outcome State Fault Refusal

/-! ### Registers -/

/-- `x[i]` (R20, R21): register 0 always reads as zero. -/
def State.readReg (s : State) (i : RegIdx) : Word :=
  if i = 0#5 then 0#32 else s.regs[i.toNat]'(i.isLt)

/-- `x[i] <- v` (R22). The rules perform it with `i` in 1..31 only, behind the zero-destination test or
with `i = 31`; with `i = 0` this function changes nothing. -/
def State.writeReg (s : State) (i : RegIdx) (v : Word) : State :=
  { s with regs := if i = 0#5 then s.regs else s.regs.set i.toNat v i.isLt }

def State.setPc (s : State) (v : Word) : State := { s with pc := v }

def State.setHi (s : State) (v : Word) : State := { s with hi := v }

def State.setLo (s : State) (v : Word) : State := { s with lo := v }

def State.setStatus (s : State) (st : RunStatus) : State := { s with status := st }

def State.setRegions (s : State) (rs : List Region) : State := { s with regions := rs }

/-! ### Stopping -/

/-- `raise K(info)` (R250, R260): all that a fatal condition does. The status records it; nothing is saved
and control goes nowhere; whatever the instruction wrote before stays. There is no return from it: no
instruction leaves `Fault` (R261), so nothing stands beside it. -/
def State.raise (s : State) (c : FatalCondition) : State := s.setStatus (.fault c)

/-- `halt` (R230, R270): the run ends with status Halted. -/
def State.halt (s : State) : State := s.setStatus .halted

/-- The zero-destination test (R92, R93), made before anything else of the instruction `i` (R99): if the
field tested is 0, `ZeroRegisterWrite` with the instruction's word, and no other effect. -/
def zeroTest (field : RegIdx) (i : Instr) (s : State) (body : Result) : Result :=
  if field = 0#5 then .next (s.raise (.zeroRegisterWrite (encode i))) else body

/-! ### Memory -/

/-- `MemRead(a, n)` (R55): the `n` bytes as one unsigned number, or the condition raised; and the state,
in which the device that was read may have changed (R42). -/
def memRead (s : State) (n : Width) (a : Word) : Except FatalCondition Word × State :=
  let answer := access s.regions a (.read n)
  (match answer.1 with
    | .ok bs => .ok (assembleBytes bs)
    | .error c => .error c,
   s.setRegions answer.2)

/-- `MemWrite(a, n, v)` (R56): the low bytes of `v`, most significant first; the condition raised, if any,
and the state. -/
def memWrite (s : State) (n : Width) (a v : Word) : Option FatalCondition × State :=
  let answer := access s.regions a fun l => .write n l (splitBytes n v)
  (match answer.1 with
    | .ok _ => none
    | .error c => some c,
   s.setRegions answer.2)

/-- The fetch (R55, R284): one word at `pc`, through the same path as any load. -/
def fetch (s : State) : Except FatalCondition Word × State := memRead s .word s.pc

/-! ### Placing an instruction where the next step fetches it -/

/-- The last address of a four-byte region that starts at `a`, cut off at the top of the space. -/
def wordEnd (a : Word) : Word := if a ≤ 0xFFFFFFFC#32 then a + 3#32 else 0xFFFFFFFF#32

/-- Stands for the host's loading of a program before the run (R282, log 7): the status is Running, and the
word lies at `pc`. If `pc` resolves to a Memory Device that holds four bytes there, the word is written
into it; else a fresh Memory Device of four bytes that holds the word is mapped over the addresses of
that word. -/
def State.placeWord (s : State) (w : Word) : State :=
  let running := s.setStatus .running
  let data := splitBytes .word w
  let overlay :=
    (running.mapRegion
      (.memory { size := 4, mem := Memory.writeBytes [] 0 data }) s.pc (wordEnd s.pc) true).2
  match resolve s.regions s.pc with
  | some r =>
    match r.device with
    | .memory d =>
      if d.inBounds .word (r.translate s.pc) then (memWrite running .word s.pc w).2 else overlay
    | .other _ _ => overlay
  | none => overlay

end Sys2Proof.Machine
end

