-- ==== Sys2Proof/Machine/Flags.lean ====
section
/-! DEFINITION. The machine has no flags, no condition codes, no carry and no overflow bit (10_state.md
R27). What stands here is what takes their place: the comparisons, written into a register by SLT, SLTU,
SLTI, SLTIU, or tested by a branch. -/

namespace Sys2Proof.Machine

/-- `a <s b` (R8). -/
def lessSigned (a b : Word) : Bool := a.slt b

/-- `a <u b` (R8). -/
def lessUnsigned (a b : Word) : Bool := a.ult b

/-- `if b then 1 else 0` (R119, R120, R163, R164). -/
def boolWord (b : Bool) : Word := if b then 1#32 else 0#32

/-- `v <s 0` (R206). -/
def isNegative (v : Word) : Bool := lessSigned v 0#32

/-- `v >s 0` (R205). -/
def isPositive (v : Word) : Bool := lessSigned 0#32 v

/-- `v <=s 0` (R204). -/
def isNotPositive (v : Word) : Bool := isNegative v || v == 0#32

/-- The condition of BGEZ and BGEZAL (R207), at either setting of `BGEZ_TAKEN_AT_ZERO`. -/
def bgezTaken (takenAtZero : Bool) (v : Word) : Bool := isPositive v || (takenAtZero && v == 0#32)

end Sys2Proof.Machine
end

