-- ==== Sys2Proof/Machine/Operands.lean ====
section
/-! DEFINITION. How an instruction turns its fields into operands (30_encoding.md R84). -/

namespace Sys2Proof.Machine

/-- `sext_32(imm)` (R8, R84). -/
def signExtendImm (imm : Imm) : Word := imm.signExtend 32

/-- `zext_32(imm)` (R8, R84). -/
def zeroExtendImm (imm : Imm) : Word := imm.setWidth 32

/-- `imm << 16` (R84, R168). -/
def upperImm (imm : Imm) : Word := imm.setWidth 32 <<< 16

/-- How SLTIU widens its immediate (R164), at either setting of `SLTIU_IMM_EXT`. -/
def sltiuImm (ext : ImmExt) (imm : Imm) : Word :=
  match ext with
  | .zero => zeroExtendImm imm
  | .sign => signExtendImm imm

/-- The variable shift amount: the low 5 bits of a register (R84, R130, D9). -/
def variableShift (v : Word) : Shamt := v.extractLsb' 0 5

/-- The one addressing mode (R180): base plus sign-extended displacement, modulo 2^32. -/
def effectiveAddress (s : State) (rs : RegIdx) (imm : Imm) : Word := s.readReg rs + signExtendImm imm

/-- The target of a branch (R200); `pc` is the advanced pc. -/
def branchTarget (pc : Word) (imm : Imm) : Word := pc + signExtendImm imm

/-- The target of J and JAL (R210); `pc` is the advanced pc. -/
def jumpTarget (pc : Word) (target : Target) : Word :=
  target.setWidth 32 <<< 2 ||| (pc &&& 0xF0000000#32)

/-- The link value of JAL, BLTZAL and BGEZAL (R201); `pc` is the advanced pc. -/
def linkValue (pc : Word) : Word := pc + 4#32

/-- The link register (R35, R201). -/
def linkReg : RegIdx := 31#5

/-- The SYSCALL code (R230): a 20-bit number built from the field numbers, not from registers. -/
def syscallCode (rs rt : RegIdx) (shamt : Shamt) : BitVec 20 :=
  rs.setWidth 20 <<< 10 ||| rt.setWidth 20 <<< 15 ||| shamt.setWidth 20

/-- `sext_32` of the low `8n` bits of a value read from memory (R181). -/
def signExtendRead (n : Width) (v : Word) : Word :=
  match n with
  | .byte => (v.setWidth 8).signExtend 32
  | .half => (v.setWidth 16).signExtend 32
  | .word => v

/-- `zext_32` of the low `8n` bits of a value read from memory (R181). -/
def zeroExtendRead (n : Width) (v : Word) : Word :=
  match n with
  | .byte => (v.setWidth 8).setWidth 32
  | .half => (v.setWidth 16).setWidth 32
  | .word => v

end Sys2Proof.Machine
end

