-- ==== Sys2Proof/Machine/AluImmediate.lean ====
section
/-! DEFINITION. Immediate arithmetic, logic and comparison (43_alu_immediate.md R160 to R168). -/

namespace Sys2Proof.Machine

/-- The common rule R160: after the zero-destination test on `rt`, `x[rt] <- f x[rs]`. -/
def immOp (f : Word → Word) (i : Instr) (rs rt : RegIdx) (s : State) : Result :=
  zeroTest rt i s (.next (s.writeReg rt (f (s.readReg rs))))

/-- ADDI, R161: sign-extended; wraps, no trap. -/
def execAddi (rs rt : RegIdx) (imm : Imm) (s : State) : Result :=
  immOp (fun a => a + signExtendImm imm) (.addi rs rt imm) rs rt s

/-- ADDIU, R162: zero-extended (D6). -/
def execAddiu (rs rt : RegIdx) (imm : Imm) (s : State) : Result :=
  immOp (fun a => a + zeroExtendImm imm) (.addiu rs rt imm) rs rt s

/-- SLTI, R163: sign-extended, signed comparison. -/
def execSlti (rs rt : RegIdx) (imm : Imm) (s : State) : Result :=
  immOp (fun a => boolWord (lessSigned a (signExtendImm imm))) (.slti rs rt imm) rs rt s

/-- SLTIU, R164: widened as `SLTIU_IMM_EXT` says, unsigned comparison. -/
def execSltiu (rs rt : RegIdx) (imm : Imm) (s : State) : Result :=
  immOp (fun a => boolWord (lessUnsigned a (sltiuImm Config.sltiuImmExt imm))) (.sltiu rs rt imm) rs rt s

/-- ANDI, R165. -/
def execAndi (rs rt : RegIdx) (imm : Imm) (s : State) : Result :=
  immOp (fun a => a &&& zeroExtendImm imm) (.andi rs rt imm) rs rt s

/-- ORI, R166. -/
def execOri (rs rt : RegIdx) (imm : Imm) (s : State) : Result :=
  immOp (fun a => a ||| zeroExtendImm imm) (.ori rs rt imm) rs rt s

/-- XORI, R167. -/
def execXori (rs rt : RegIdx) (imm : Imm) (s : State) : Result :=
  immOp (fun a => a ^^^ zeroExtendImm imm) (.xori rs rt imm) rs rt s

/-- LUI, R168: no register is read. -/
def execLui (rs rt : RegIdx) (imm : Imm) (s : State) : Result :=
  immOp (fun _ => upperImm imm) (.lui rs rt imm) rs rt s

end Sys2Proof.Machine
end

