-- ==== Sys2Proof/Machine/AluRegister.lean ====
section
/-! DEFINITION. Register-register arithmetic, logic and comparison (40_alu_register.md R110 to R121). -/

namespace Sys2Proof.Machine

/-- The common rule R110 of the three-register instructions: after the zero-destination test, both
sources are read and `x[rd]` receives `f x[rs] x[rt]`. Also the variable shifts (R130). -/
def regOp (f : Word → Word → Word) (i : Instr) (rs rt rd : RegIdx) (s : State) : Result :=
  zeroTest rd i s (.next (s.writeReg rd (f (s.readReg rs) (s.readReg rt))))

/-- ADD, R111: wraps, no trap. -/
def execAdd (rs rt rd : RegIdx) (shamt : Shamt) (s : State) : Result :=
  regOp (fun a b => a + b) (.add rs rt rd shamt) rs rt rd s

/-- ADDU, R112. -/
def execAddu (rs rt rd : RegIdx) (shamt : Shamt) (s : State) : Result :=
  regOp (fun a b => a + b) (.addu rs rt rd shamt) rs rt rd s

/-- SUB, R113: the subtrahend is `x[rt]`. -/
def execSub (rs rt rd : RegIdx) (shamt : Shamt) (s : State) : Result :=
  regOp (fun a b => a - b) (.sub rs rt rd shamt) rs rt rd s

/-- SUBU, R114. -/
def execSubu (rs rt rd : RegIdx) (shamt : Shamt) (s : State) : Result :=
  regOp (fun a b => a - b) (.subu rs rt rd shamt) rs rt rd s

/-- AND, R115. -/
def execAnd (rs rt rd : RegIdx) (shamt : Shamt) (s : State) : Result :=
  regOp (fun a b => a &&& b) (.and rs rt rd shamt) rs rt rd s

/-- OR, R116. -/
def execOr (rs rt rd : RegIdx) (shamt : Shamt) (s : State) : Result :=
  regOp (fun a b => a ||| b) (.or rs rt rd shamt) rs rt rd s

/-- XOR, R117. -/
def execXor (rs rt rd : RegIdx) (shamt : Shamt) (s : State) : Result :=
  regOp (fun a b => a ^^^ b) (.xor rs rt rd shamt) rs rt rd s

/-- NOR, R118. -/
def execNor (rs rt rd : RegIdx) (shamt : Shamt) (s : State) : Result :=
  regOp (fun a b => ~~~(a ||| b)) (.nor rs rt rd shamt) rs rt rd s

/-- SLT, R119. -/
def execSlt (rs rt rd : RegIdx) (shamt : Shamt) (s : State) : Result :=
  regOp (fun a b => boolWord (lessSigned a b)) (.slt rs rt rd shamt) rs rt rd s

/-- SLTU, R120. -/
def execSltu (rs rt rd : RegIdx) (shamt : Shamt) (s : State) : Result :=
  regOp (fun a b => boolWord (lessUnsigned a b)) (.sltu rs rt rd shamt) rs rt rd s

end Sys2Proof.Machine
end

