-- ==== Sys2Proof/Machine/BranchJump.lean ====
section
/-! DEFINITION. Control transfer (45_branch_jump.md R200 to R214). `s.pc` is the advanced pc throughout
(10_state.md R24): the step increments it before the instruction acts. No delay slot (R200). -/

namespace Sys2Proof.Machine

/-- A conditional branch (R200): the target if taken, else the pc stays as it is. -/
def branch (taken : Bool) (imm : Imm) (s : State) : State :=
  if taken then s.setPc (branchTarget s.pc imm) else s

/-- The link write of JAL, BLTZAL and BGEZAL (R201). -/
def link (s : State) : State := s.writeReg linkReg (linkValue s.pc)

/-- BEQ, R202. -/
def execBeq (rs rt : RegIdx) (imm : Imm) (s : State) : Result :=
  .next (branch (s.readReg rs == s.readReg rt) imm s)

/-- BNE, R203. -/
def execBne (rs rt : RegIdx) (imm : Imm) (s : State) : Result :=
  .next (branch (s.readReg rs != s.readReg rt) imm s)

/-- BLEZ, R204; `rt` is ignored. -/
def execBlez (rs _rt : RegIdx) (imm : Imm) (s : State) : Result :=
  .next (branch (isNotPositive (s.readReg rs)) imm s)

/-- BGTZ, R205; `rt` is ignored. -/
def execBgtz (rs _rt : RegIdx) (imm : Imm) (s : State) : Result :=
  .next (branch (isPositive (s.readReg rs)) imm s)

/-- BLTZ, R206. -/
def execBltz (rs : RegIdx) (imm : Imm) (s : State) : Result :=
  .next (branch (isNegative (s.readReg rs)) imm s)

/-- BGEZ, R207: at zero as `BGEZ_TAKEN_AT_ZERO` says. -/
def execBgez (rs : RegIdx) (imm : Imm) (s : State) : Result :=
  .next (branch (bgezTaken Config.bgezTakenAtZero (s.readReg rs)) imm s)

/-- BLTZAL, R208: x[31] is written first, always, and `x[rs]` is read after it. -/
def execBltzal (rs : RegIdx) (imm : Imm) (s : State) : Result :=
  .next (branch (isNegative ((link s).readReg rs)) imm (link s))

/-- BGEZAL, R209: x[31] is written first, always, and `x[rs]` is read after it. -/
def execBgezal (rs : RegIdx) (imm : Imm) (s : State) : Result :=
  .next (branch (bgezTaken Config.bgezTakenAtZero ((link s).readReg rs)) imm (link s))

/-- J, R211. -/
def execJ (target : Target) (s : State) : Result :=
  .next (s.setPc (jumpTarget s.pc target))

/-- JAL, R212. -/
def execJal (target : Target) (s : State) : Result :=
  .next ((link s).setPc (jumpTarget s.pc target))

/-- JR, R213: `rd` must not be 0 and is otherwise unused. -/
def execJr (rs rt rd : RegIdx) (shamt : Shamt) (s : State) : Result :=
  zeroTest rd (.jr rs rt rd shamt) s (.next (s.setPc (s.readReg rs)))

/-- JALR, R214: no register is written, neither x[rd] nor x[31]. -/
def execJalr (rs rt rd : RegIdx) (shamt : Shamt) (s : State) : Result :=
  zeroTest rd (.jalr rs rt rd shamt) s (.next (s.setPc (s.readReg rs)))

end Sys2Proof.Machine
end

