-- ==== Sys2Proof/Machine/LoadStore.lean ====
section
/-! DEFINITION. Loads and stores (44_load_store.md R180 to R190). -/

namespace Sys2Proof.Machine

/-- What a load does after its access (R181): the condition raised, with `x[rt]` not written, or the
value, widened, written to `x[rt]`. -/
def finishLoad (rt : RegIdx) (widen : Word → Word) : Except FatalCondition Word × State → Result
  | (.error c, s) => .next (s.raise c)
  | (.ok v, s) => .next (s.writeReg rt (widen v))

/-- The order of events common to the five loads (R181). -/
def load (n : Width) (widen : Word → Word) (i : Instr) (rs rt : RegIdx) (imm : Imm) (s : State) : Result :=
  zeroTest rt i s (finishLoad rt widen (memRead s n (effectiveAddress s rs imm)))

/-- What a store does after its access (R187). -/
def finishStore : Option FatalCondition × State → Result
  | (some c, s) => .next (s.raise c)
  | (none, s) => .next s

/-- The order of events common to the three stores (R187); `rt` is a source, so `rt = 0` stores zeros. -/
def store (n : Width) (rs rt : RegIdx) (imm : Imm) (s : State) : Result :=
  finishStore (memWrite s n (effectiveAddress s rs imm) (s.readReg rt))

/-- LB, R182. -/
def execLb (rs rt : RegIdx) (imm : Imm) (s : State) : Result :=
  load .byte (signExtendRead .byte) (.lb rs rt imm) rs rt imm s

/-- LBU, R183. -/
def execLbu (rs rt : RegIdx) (imm : Imm) (s : State) : Result :=
  load .byte (zeroExtendRead .byte) (.lbu rs rt imm) rs rt imm s

/-- LHW, R184. -/
def execLhw (rs rt : RegIdx) (imm : Imm) (s : State) : Result :=
  load .half (signExtendRead .half) (.lhw rs rt imm) rs rt imm s

/-- LHWU, R185. -/
def execLhwu (rs rt : RegIdx) (imm : Imm) (s : State) : Result :=
  load .half (zeroExtendRead .half) (.lhwu rs rt imm) rs rt imm s

/-- LW, R186. -/
def execLw (rs rt : RegIdx) (imm : Imm) (s : State) : Result :=
  load .word (zeroExtendRead .word) (.lw rs rt imm) rs rt imm s

/-- SB, R188. -/
def execSb (rs rt : RegIdx) (imm : Imm) (s : State) : Result :=
  store .byte rs rt imm s

/-- SHW, R189. -/
def execShw (rs rt : RegIdx) (imm : Imm) (s : State) : Result :=
  store .half rs rt imm s

/-- SW, R190. -/
def execSw (rs rt : RegIdx) (imm : Imm) (s : State) : Result :=
  store .word rs rt imm s

end Sys2Proof.Machine
end

