-- ==== Sys2Proof/Machine/MulDiv.lean ====
section
/-! DEFINITION. Multiply, divide and the hi/lo moves (42_muldiv_hilo.md R140 to R149). All eight make the
zero-destination test on `rd`, whatever they do with it (R140, 90_conflicts.md C1). -/

namespace Sys2Proof.Machine

/-- `lo <- p[31:0]; hi <- p[63:32]` (R141, R142). -/
def setProduct (s : State) (p : BitVec 64) : State :=
  (s.setLo (p.extractLsb' 0 32)).setHi (p.extractLsb' 32 32)

/-- The exact product of the signed readings, as a 64-bit two's-complement value (R141). -/
def signedProduct (a b : Word) : BitVec 64 := BitVec.ofInt 64 (a.toInt * b.toInt)

/-- The exact product of the unsigned readings (R142). -/
def unsignedProduct (a b : Word) : BitVec 64 := BitVec.ofNat 64 (a.toNat * b.toNat)

/-- Quotient and remainder of a signed division by a divisor that is not 0 (R143): the quotient rounded
toward zero, the remainder with the dividend's sign (D10), both modulo 2^32. `none` only for the one
overflowing case under the setting `refuse` of `DIV_OVERFLOW` (R6, U4). -/
def signedDivide (mode : DivOverflow) (a b : Word) : Option (Word × Word) :=
  if a = 0x80000000#32 ∧ b = 0xFFFFFFFF#32 ∧ mode = .refuse then none
  else
    let q := Int.tdiv a.toInt b.toInt
    some (BitVec.ofInt 32 q, BitVec.ofInt 32 (a.toInt - q * b.toInt))

/-- Quotient and remainder of an unsigned division by a divisor that is not 0 (R144). -/
def unsignedDivide (a b : Word) : Word × Word := (a / b, a - a / b * b)

/-- MULT, R141. -/
def execMult (rs rt rd : RegIdx) (shamt : Shamt) (s : State) : Result :=
  zeroTest rd (.mult rs rt rd shamt) s (.next (setProduct s (signedProduct (s.readReg rs) (s.readReg rt))))

/-- MULTU, R142. -/
def execMultu (rs rt rd : RegIdx) (shamt : Shamt) (s : State) : Result :=
  zeroTest rd (.multu rs rt rd shamt) s (.next (setProduct s (unsignedProduct (s.readReg rs) (s.readReg rt))))

/-- DIV, R143: quotient to lo, remainder to hi; a zero divisor raises `DivideByZero` and leaves both. -/
def execDiv (rs rt rd : RegIdx) (shamt : Shamt) (s : State) : Result :=
  zeroTest rd (.div rs rt rd shamt) s
    (if s.readReg rt = 0#32 then .next (s.raise (.divideByZero (encode (.div rs rt rd shamt))))
     else
       match signedDivide Config.divOverflow (s.readReg rs) (s.readReg rt) with
       | some (q, r) => .next ((s.setLo q).setHi r)
       | none => .refused .divOverflow)

/-- DIVU, R144. -/
def execDivu (rs rt rd : RegIdx) (shamt : Shamt) (s : State) : Result :=
  zeroTest rd (.divu rs rt rd shamt) s
    (if s.readReg rt = 0#32 then .next (s.raise (.divideByZero (encode (.divu rs rt rd shamt))))
     else
       .next ((s.setLo (unsignedDivide (s.readReg rs) (s.readReg rt)).1).setHi
         (unsignedDivide (s.readReg rs) (s.readReg rt)).2))

/-- MFHI, R146. -/
def execMfhi (rs rt rd : RegIdx) (shamt : Shamt) (s : State) : Result :=
  zeroTest rd (.mfhi rs rt rd shamt) s (.next (s.writeReg rd s.hi))

/-- MFLO, R147. -/
def execMflo (rs rt rd : RegIdx) (shamt : Shamt) (s : State) : Result :=
  zeroTest rd (.mflo rs rt rd shamt) s (.next (s.writeReg rd s.lo))

/-- MTHI, R148: the source register is named by `rd`. -/
def execMthi (rs rt rd : RegIdx) (shamt : Shamt) (s : State) : Result :=
  zeroTest rd (.mthi rs rt rd shamt) s (.next (s.setHi (s.readReg rd)))

/-- MTLO, R149: the source register is named by `rd`; `lo` is written (90_conflicts.md C6). -/
def execMtlo (rs rt rd : RegIdx) (shamt : Shamt) (s : State) : Result :=
  zeroTest rd (.mtlo rs rt rd shamt) s (.next (s.setLo (s.readReg rd)))

end Sys2Proof.Machine
end

