-- ==== Sys2Proof/Machine/Shift.lean ====
section
/-! DEFINITION. Shifts (41_shift.md R130 to R136). The operand roles are the spec's, not those of MIPS
(90_conflicts.md C8): SLLV and SRLV shift `x[rs]` by `x[rt]`, SRAV shifts `x[rt]` by `x[rs]`. -/

namespace Sys2Proof.Machine

/-- `v << n` (R8). -/
def shiftLeft (v : Word) (n : Shamt) : Word := v <<< n.toNat

/-- `v >>u n` (R8). -/
def shiftRightLogical (v : Word) (n : Shamt) : Word := v >>> n.toNat

/-- `v >>s n` (R8). -/
def shiftRightArith (v : Word) (n : Shamt) : Word := v.sshiftRight n.toNat

/-- The immediate shifts: `x[rd] <- f x[rt] shamt`, after the zero-destination test (R130). -/
def shiftImm (f : Word → Shamt → Word) (i : Instr) (rt rd : RegIdx) (shamt : Shamt) (s : State) : Result :=
  zeroTest rd i s (.next (s.writeReg rd (f (s.readReg rt) shamt)))

/-- SLL, R131; `rs` is ignored. -/
def execSll (rs rt rd : RegIdx) (shamt : Shamt) (s : State) : Result :=
  shiftImm shiftLeft (.sll rs rt rd shamt) rt rd shamt s

/-- SRL, R132; `rs` is ignored. -/
def execSrl (rs rt rd : RegIdx) (shamt : Shamt) (s : State) : Result :=
  shiftImm shiftRightLogical (.srl rs rt rd shamt) rt rd shamt s

/-- SRA, R133; `rs` is ignored. -/
def execSra (rs rt rd : RegIdx) (shamt : Shamt) (s : State) : Result :=
  shiftImm shiftRightArith (.sra rs rt rd shamt) rt rd shamt s

/-- SLLV, R134: the value is `x[rs]`, the amount `x[rt][4:0]`. -/
def execSllv (rs rt rd : RegIdx) (shamt : Shamt) (s : State) : Result :=
  regOp (fun a b => shiftLeft a (variableShift b)) (.sllv rs rt rd shamt) rs rt rd s

/-- SRLV, R135: the value is `x[rs]`, the amount `x[rt][4:0]`. -/
def execSrlv (rs rt rd : RegIdx) (shamt : Shamt) (s : State) : Result :=
  regOp (fun a b => shiftRightLogical a (variableShift b)) (.srlv rs rt rd shamt) rs rt rd s

/-- SRAV, R136: the value is `x[rt]`, the amount `x[rs][4:0]`. -/
def execSrav (rs rt rd : RegIdx) (shamt : Shamt) (s : State) : Result :=
  regOp (fun a b => shiftRightArith b (variableShift a)) (.srav rs rt rd shamt) rs rt rd s

end Sys2Proof.Machine
end

