-- ==== Sys2Proof/Machine/System.lean ====
section
/-! DEFINITION. SYSCALL and the refused instruction classes (46_system.md R230 to R238). -/

namespace Sys2Proof.Machine

/-- SYSCALL, R230: code 10 halts, any other code does nothing; `rd` is ignored and not tested (R92). -/
def execSyscall (rs rt _rd : RegIdx) (shamt : Shamt) (s : State) : Result :=
  .next (if syscallCode rs rt shamt = 10#20 then s.halt else s)

/-- The common rule R231 of the refused classes: `raise NotImplemented(w)` and no other effect. -/
def refuseClass (i : Instr) (s : State) : Result :=
  .next (s.raise (.notImplemented (encode i)))

/-- LWL, R232. -/
def execLwl (bits : Target) (s : State) : Result := refuseClass (.lwl bits) s

/-- LWR, R233. -/
def execLwr (bits : Target) (s : State) : Result := refuseClass (.lwr bits) s

/-- SWL, R234. -/
def execSwl (bits : Target) (s : State) : Result := refuseClass (.swl bits) s

/-- SWR, R235. -/
def execSwr (bits : Target) (s : State) : Result := refuseClass (.swr bits) s

/-- LWC0, R236. -/
def execLwc0 (bits : Target) (s : State) : Result := refuseClass (.lwc0 bits) s

/-- LWC1, R236. -/
def execLwc1 (bits : Target) (s : State) : Result := refuseClass (.lwc1 bits) s

/-- LWC2, R236. -/
def execLwc2 (bits : Target) (s : State) : Result := refuseClass (.lwc2 bits) s

/-- LWC3, R236. -/
def execLwc3 (bits : Target) (s : State) : Result := refuseClass (.lwc3 bits) s

/-- SWC0, R237. -/
def execSwc0 (bits : Target) (s : State) : Result := refuseClass (.swc0 bits) s

/-- SWC1, R237. -/
def execSwc1 (bits : Target) (s : State) : Result := refuseClass (.swc1 bits) s

/-- SWC2, R237. -/
def execSwc2 (bits : Target) (s : State) : Result := refuseClass (.swc2 bits) s

/-- SWC3, R237. -/
def execSwc3 (bits : Target) (s : State) : Result := refuseClass (.swc3 bits) s

/-- COP0, R238. -/
def execCop0 (bits : Target) (s : State) : Result := refuseClass (.cop0 bits) s

/-- COP1, R238. -/
def execCop1 (bits : Target) (s : State) : Result := refuseClass (.cop1 bits) s

/-- COP2, R238. -/
def execCop2 (bits : Target) (s : State) : Result := refuseClass (.cop2 bits) s

/-- COP3, R238. -/
def execCop3 (bits : Target) (s : State) : Result := refuseClass (.cop3 bits) s

end Sys2Proof.Machine
end

