-- ==== Sys2Proof/Machine/Step.lean ====
section
/-! DEFINITION. The step function (70_reset_and_hazards.md R284) and the place of the next instruction. -/

namespace Sys2Proof.Machine

/-- One step: one whole instruction (R284). A machine that is not running takes no step (R28). If the
fetch raises a condition, pc is not advanced (R24, D22); else pc is advanced before anything else. -/
def step (s : State) : Host.Outcome State Fault Refusal :=
  match s.status with
  | .halted => .fault .halted
  | .fault c => .fault (.fatal c)
  | .running =>
    match fetch s with
    | (.error c, s') => .next (s'.raise c)
    | (.ok w, s') =>
      match decodeWord w with
      | .error _ => .next ((s'.setPc (s'.pc + 4#32)).raise (.illegalInstruction w))
      | .ok i => exec i (s'.setPc (s'.pc + 4#32))

/-- `s` with the instruction whose bits are `w`, numbered as spec/opcode_table.json numbers them, where
the next step fetches it (log 7). Every instruction is one 32-bit word (R80). -/
def State.withFetchWord (s : State) (nbits w : Nat) : State :=
  s.placeWord (BitVec.ofNat 32 (w % 2 ^ nbits))

end Sys2Proof.Machine
end

