-- ==== Sys2Proof/Machine/Run.lean ====
section
/-! DEFINITION. The run loop (70_reset_and_hazards.md R285, R286, R290). -/

namespace Sys2Proof.Machine

/-- `while status = Running: step`, with a budget of steps in place of a loop that may not end (R290, U9).
The state it answers holds the final status, or status Running if the budget ran out. -/
def run : Nat → State → Result
  | 0, s => .next s
  | k + 1, s =>
    match s.status with
    | .running =>
      match step s with
      | .next t => run k t
      | .fault r => .fault r
      | .refused r => .refused r
    | _ => .next s

end Sys2Proof.Machine
end

