-- ==== Sys2Proof/Safety.lean ====
section
/-! DEFINITION. The terms claims are made in: the invariant of the state, what a step never changes, the
frames of the instructions, and what a safe run is. -/

namespace Sys2Proof.Machine

/-! ### The invariant -/

/-- A device in canonical form. -/
abbrev Device.wf (d : Device) : Prop :=
  match d with
  | .memory m => m.wf
  | .other _ _ => True

/-- The invariant of the state: slot 0 of the register file holds 0 (R21, R22); every Memory Device is in
canonical form and holds no byte outside its size (R44); the handles of the region table are distinct
and were handed out (R49). -/
abbrev State.wf (s : State) : Prop :=
  s.regs[0] = 0#32 ∧ (∀ r ∈ s.regions, r.device.wf) ∧
  s.regions.Pairwise (fun r q => r.handle ≠ q.handle) ∧ ∀ r ∈ s.regions, r.handle < s.nextHandle

/-! ### The topology of memory, which a run never changes (R29, R44, R70) -/

/-- What a device is, without what it holds. -/
inductive DeviceKind where
  | memory (size : Nat)
  | other (id : Nat)
  deriving DecidableEq, Repr

def Device.kind : Device → DeviceKind
  | .memory d => .memory d.size
  | .other id _ => .other id

/-- A region without what its device holds. -/
structure RegionShape where
  handle : Nat
  kind : DeviceKind
  start : Word
  last : Word
  remap : Bool
  deriving DecidableEq, Repr

def Region.shape (r : Region) : RegionShape :=
  { handle := r.handle, kind := r.device.kind, start := r.start, last := r.last, remap := r.remap }

/-- The region table without what the devices hold. -/
def topology (rs : List Region) : List RegionShape := rs.map Region.shape

/-! ### Frames: what an instruction leaves unchanged -/

/-- `t` is `s` but for general register `r`, which reads `v`. -/
structure OnlyReg (s t : State) (r : RegIdx) (v : Word) : Prop where
  result : t.readReg r = v
  others : ∀ q, q ≠ r → t.readReg q = s.readReg q
  pc : t.pc = s.pc
  hi : t.hi = s.hi
  lo : t.lo = s.lo
  status : t.status = s.status
  regions : t.regions = s.regions
  handles : t.nextHandle = s.nextHandle

/-- `t` is `s` but for `hi` and `lo`, which hold the values given. -/
structure OnlyHiLo (s t : State) (hi lo : Word) : Prop where
  newHi : t.hi = hi
  newLo : t.lo = lo
  regs : t.regs = s.regs
  pc : t.pc = s.pc
  status : t.status = s.status
  regions : t.regions = s.regions
  handles : t.nextHandle = s.nextHandle

/-- `t` is `s` but for `pc`, which holds the value given. -/
structure OnlyPc (s t : State) (pc : Word) : Prop where
  newPc : t.pc = pc
  regs : t.regs = s.regs
  hi : t.hi = s.hi
  lo : t.lo = s.lo
  status : t.status = s.status
  regions : t.regions = s.regions
  handles : t.nextHandle = s.nextHandle

/-- `t` is `s` but for the run status. -/
structure OnlyStatus (s t : State) (st : RunStatus) : Prop where
  newStatus : t.status = st
  regs : t.regs = s.regs
  pc : t.pc = s.pc
  hi : t.hi = s.hi
  lo : t.lo = s.lo
  regions : t.regions = s.regions
  handles : t.nextHandle = s.nextHandle

/-- `t` is `s` but for the region table. -/
structure OnlyRegions (s t : State) (rs : List Region) : Prop where
  newRegions : t.regions = rs
  regs : t.regs = s.regs
  pc : t.pc = s.pc
  hi : t.hi = s.hi
  lo : t.lo = s.lo
  status : t.status = s.status
  handles : t.nextHandle = s.nextHandle

/-! ### Accesses that reach a Memory Device -/

/-- The global address `a` resolves to region `r`, whose device is the Memory Device `d`, and an access of
this width there stays inside it (R47, R51). -/
structure Reaches (s : State) (n : Width) (a : Word) (r : Region) (d : MemoryDevice) : Prop where
  resolves : resolve s.regions a = some r
  memory : r.device = .memory d
  inside : (r.translate a).toNat + n.bytes ≤ d.size

/-- The byte of `d` that is `i` bytes after the one global address `a` of region `r` stands for. -/
def byteAfter (r : Region) (d : MemoryDevice) (a : Word) (i : Nat) : Byte :=
  d.mem.read ((r.translate a).toNat + i)

/-- The one addressing mode (R180; the wrap is D14): the effective address is the base register plus the
SIGNED reading of the displacement, modulo 2^32. -/
def EffectiveAddressRule : Prop :=
  ∀ (s : State) (rs : RegIdx) (imm : Imm),
    effectiveAddress s rs imm = BitVec.ofInt 32 (((s.readReg rs).toNat : Int) + imm.toInt)

/-! ### Shapes of results -/

/-- The instruction answers a next state that differs from `s` in the run status alone, which is now the
fatal condition `c` (R250, R260). -/
def StopsWith (i : Instr) (s : State) (c : FatalCondition) : Prop :=
  ∃ t, exec i s = .next t ∧ OnlyStatus s t (.fault c)

/-- The result of an R-format instruction that writes `x[rd]`: `f x[rs] x[rt] shamt` and nothing else; with
`rd = 0`, `ZeroRegisterWrite` and nothing else (R92); ZeroDestinationComesFirst says with which word. -/
def RegResult (mk : RegIdx → RegIdx → RegIdx → Shamt → Instr) (f : Word → Word → Shamt → Word) : Prop :=
  ∀ rs rt rd shamt s,
    (rd ≠ 0#5 → ∃ t, exec (mk rs rt rd shamt) s = .next t ∧
      OnlyReg s t rd (f (s.readReg rs) (s.readReg rt) shamt)) ∧
    (rd = 0#5 → ∃ w, StopsWith (mk rs rt rd shamt) s (.zeroRegisterWrite w))

/-- The result of an I-format instruction that writes `x[rt]`: `f x[rs] imm` and nothing else; with
`rt = 0`, `ZeroRegisterWrite` and nothing else (R93); ZeroDestinationComesFirst says with which word. -/
def ImmResult (mk : RegIdx → RegIdx → Imm → Instr) (f : Word → Imm → Word) : Prop :=
  ∀ rs rt imm s,
    (rt ≠ 0#5 → ∃ t, exec (mk rs rt imm) s = .next t ∧ OnlyReg s t rt (f (s.readReg rs) imm)) ∧
    (rt = 0#5 → ∃ w, StopsWith (mk rs rt imm) s (.zeroRegisterWrite w))

/-- The result of a load from a Memory Device: `x[rt]` receives `f` of the bytes from the effective
address on, and nothing else changes, memory included. -/
def LoadResult (mk : RegIdx → RegIdx → Imm → Instr) (n : Width) (f : (Nat → Byte) → Word) : Prop :=
  ∀ rs rt imm s r d, rt ≠ 0#5 → Reaches s n (effectiveAddress s rs imm) r d →
    ∃ t, exec (mk rs rt imm) s = .next t ∧
      OnlyReg s t rt (f (byteAfter r d (effectiveAddress s rs imm)))

/-- The result of a store into a Memory Device of width `n` whose `i`-th byte is `f x[rt] i`: that device
holds those bytes from the effective address on and is otherwise as before; every global address
outside the bytes stored reads as before; every other region, one that no address resolves to among
them, is as before and in its place; nothing else changes. -/
def StoreResult (mk : RegIdx → RegIdx → Imm → Instr) (n : Width) (f : Word → Nat → Byte) : Prop :=
  ∀ rs rt imm s r d, s.wf → Reaches s n (effectiveAddress s rs imm) r d →
    ∃ t d' front back, exec (mk rs rt imm) s = .next t ∧ s.regions = front ++ r :: back ∧
      (∀ q ∈ front, q.covers (effectiveAddress s rs imm) = false) ∧
      OnlyRegions s t (front ++ { r with device := .memory d' } :: back) ∧
      Reaches t n (effectiveAddress s rs imm) { r with device := .memory d' } d' ∧
      d'.size = d.size ∧
      (∀ i, i < n.bytes → byteAfter r d' (effectiveAddress s rs imm) i = f (s.readReg rt) i) ∧
      (∀ k, k < (r.translate (effectiveAddress s rs imm)).toNat ∨
        (r.translate (effectiveAddress s rs imm)).toNat + n.bytes ≤ k → d'.mem.read k = d.mem.read k) ∧
      (∀ a, a.toNat < (effectiveAddress s rs imm).toNat ∨
        (effectiveAddress s rs imm).toNat + n.bytes ≤ a.toNat →
        peekByte t.regions a = peekByte s.regions a) ∧
      (∀ a q, resolve s.regions a = some q → q ≠ r → resolve t.regions a = some q)

/-- A conditional branch: the target, pc plus the signed immediate modulo 2^32, if the condition holds of
`x[rs]` and `x[rt]`; else the pc stays; nothing else changes. `pc` is the advanced pc. -/
def BranchResult (mk : RegIdx → RegIdx → Imm → Instr) (cond : Word → Word → Prop) : Prop :=
  ∀ rs rt imm s, ∃ t, exec (mk rs rt imm) s = .next t ∧
    (cond (s.readReg rs) (s.readReg rt) →
      OnlyPc s t (BitVec.ofInt 32 ((s.pc.toNat : Int) + imm.toInt))) ∧
    (¬ cond (s.readReg rs) (s.readReg rt) → OnlyPc s t s.pc)

/-- The value BLTZAL and BGEZAL test (R201): `x[rs]` after the link write. -/
def linkedValue (s : State) (rs : RegIdx) : Word :=
  if rs = 31#5 then s.pc + 4#32 else s.readReg rs

/-- A linking branch: x[31] is the advanced pc plus 4 whether or not it branches; the condition is of
`x[rs]` after that write; no other register and nothing else but pc changes. -/
def LinkBranchResult (mk : RegIdx → Imm → Instr) (cond : Word → Prop) : Prop :=
  ∀ rs imm s, ∃ t u, exec (mk rs imm) s = .next t ∧ OnlyReg s u 31#5 (s.pc + 4#32) ∧
    (cond (linkedValue s rs) → OnlyPc u t (BitVec.ofInt 32 ((s.pc.toNat : Int) + imm.toInt))) ∧
    (¬ cond (linkedValue s rs) → OnlyPc u t s.pc)

/-- The instruction is a branch or a jump (45_branch_jump.md). -/
def writesPc : Instr → Bool
  | .beq _ _ _ | .bne _ _ _ | .blez _ _ _ | .bgtz _ _ _ | .bltz _ _ | .bgez _ _ | .bltzal _ _ | .bgezal _ _
  | .j _ | .jal _ | .jr _ _ _ _ | .jalr _ _ _ _ => true
  | _ => false

/-- The instruction writes memory (R40). -/
def writesMemory : Instr → Bool
  | .sb _ _ _ | .shw _ _ _ | .sw _ _ _ => true
  | _ => false

/-- The instruction writes hi or lo (R26). -/
def writesHiLo : Instr → Bool
  | .mult _ _ _ _ | .multu _ _ _ _ | .div _ _ _ _ | .divu _ _ _ _ | .mthi _ _ _ _ | .mtlo _ _ _ _ => true
  | _ => false

/-- The general register an instruction writes (R33), if it writes one. -/
def destination (i : Instr) : Option RegIdx :=
  match i with
  | .mult _ _ _ _ | .multu _ _ _ _ | .div _ _ _ _ | .divu _ _ _ _ | .mthi _ _ _ _ | .mtlo _ _ _ _
  | .jr _ _ _ _ | .jalr _ _ _ _ => none
  | .jal _ | .bltzal _ _ | .bgezal _ _ => some 31#5
  | i => i.testedField

/-! ### Runs -/

/-- A run of at most `k` steps in which no fatal condition arises and no step is missing. -/
def safeRun (k : Nat) (s : State) : Prop :=
  ∃ t, run k s = .next t ∧ ∀ c, t.status ≠ .fault c

end Sys2Proof.Machine
end

