-- ==== Sys2Proof/Certificates/Slice0/Obligations.lean ====
section
/-! DEFINITION. The statements for the provers. `s.pc` in a statement about `exec` is the advanced pc
(10_state.md R24). A clause that rests on a choice of the model names its log entry. -/

open Sys2Proof Sys2Proof.Machine

/-! ### Encoding (30_encoding.md) -/

/-- Every instruction, with every value of every field, is read back from its word. -/
def Obligations.DecodeOfEncode : Prop :=
  ∀ i : Instr, decodeWord (encode i) = .ok i

/-- A word that decodes is the word of the instruction read: decoding drops no bit (R94, R251 to R257 report
the whole word; log 8). -/
def Obligations.EncodeOfDecode : Prop :=
  ∀ (w : Word) (i : Instr), decodeWord w = .ok i → encode i = w

/-- A word is illegal exactly if R90 lists it: 24 primary opcodes, 37 functions, 28 REGIMM codes (numbers by
D1, log 12; the 16 opcodes of NotImplemented are not among them by D19, the REGIMM codes are by D20; log 13). -/
def Obligations.IllegalWordsAreThoseListed : Prop :=
  ∀ w : Word, (∃ e, decodeWord w = .error e) ↔
    ((fieldOp w).toNat ∈ List.range' 0x14 12 ++ [0x27, 0x2C, 0x2D, 0x2F] ++ List.range' 0x34 4 ++ List.range' 0x3C 4) ∨
    (fieldOp w = 0#6 ∧ (fieldFunct w).toNat ∈ [0x01, 0x05, 0x0A, 0x0B, 0x0D, 0x0E, 0x0F] ++ List.range' 0x14 4 ++
      List.range' 0x1C 4 ++ [0x28, 0x29] ++ List.range' 0x2C 20) ∨
    (fieldOp w = 1#6 ∧ (fieldRt w).toNat ∈ List.range' 0x02 14 ++ List.range' 0x12 14)

/-- Words written out from the spec's encodings decode to the instructions they stand for (R96 and the
examples of the instruction rules; numbers by D1, log 12). -/
def Obligations.SpecWordsDecode : Prop :=
  decodeWord 0x24AA0014#32 = .ok (.addiu 5 10 20) ∧
  decodeWord 0x006A2820#32 = .ok (.add 3 10 5 0) ∧
  decodeWord 0x01430818#32 = .ok (.mult 10 3 1 0) ∧
  decodeWord 0x0000028C#32 = .ok (.syscall 0 0 0 10) ∧
  decodeWord 0x04300008#32 = .ok (.bltzal 1 8) ∧
  decodeWord 0x8C490001#32 = .ok (.lw 2 9 1) ∧
  decodeWord 0x0C000004#32 = .ok (.jal 4) ∧
  decodeWord 0xE4410000#32 = .ok (.swc1 0x0410000)

/-- The bytes of a word, laid out most significant first and given to the decoder, decode as the word. -/
def Obligations.TableWordDecodesAsWord : Prop :=
  ∀ (w : Word) (i : Instr), decodeTableWord 32 w.toNat = some i ↔ decodeWord w = .ok i

/-! ### The step (70_reset_and_hazards.md) -/

/-- When the word at pc decodes to an instruction, the step is that instruction at the state the fetch left,
with pc advanced by 4 (R24, R284; D14). The fetch has changed the region table at most; FetchResults says
how. -/
def Obligations.StepRunsTheDecodedInstruction : Prop :=
  ∀ (s s' : State) (w : Word) (i : Instr), s.status = .running → fetch s = (.ok w, s') →
    decodeWord w = .ok i →
    OnlyRegions s s' s'.regions ∧ step s = exec i (s'.setPc (s.pc + 4#32))

/-- What a fetch does, whatever pc resolves to: one read of a word at pc through the mapper (R55, R59, R284), at
any alignment (D15). From a Memory Device: the four bytes there, the first most significant, and no
change; without four bytes left there, OutOfBounds of the device-local address (no wrap by D16) and no
change. From an address no region covers: UnmappedAddress of pc and no change. From any other device,
whatever it answers (R42, U8; log 5): the device is asked once for a word at the translated address, its
signal is the condition, its answer the word, and nothing but that device has changed. The payloads are
D18, log 4. -/
def Obligations.FetchResults : Prop :=
  ∀ s : State,
    (∀ r d, Reaches s .word s.pc r d →
      fetch s = (.ok (byteAfter r d s.pc 0 ++ byteAfter r d s.pc 1 ++ byteAfter r d s.pc 2 ++ byteAfter r d s.pc 3),
        s)) ∧
    (∀ r d, resolve s.regions s.pc = some r → r.device = .memory d → d.size < (r.translate s.pc).toNat + 4 →
      fetch s = (.error (.outOfBounds (r.translate s.pc)), s)) ∧
    (resolve s.regions s.pc = none → fetch s = (.error (.unmappedAddress s.pc), s)) ∧
    ∀ r id history front back, s.regions = front ++ r :: back → r.device = .other id history →
      (∀ q ∈ front, q.covers s.pc = false) → r.covers s.pc = true → ∀ l, l = r.translate s.pc →
        ∃ u, OnlyRegions s u (front ++ { r with device := .other id (history ++ [.read .word l]) } :: back) ∧
          match otherAnswer id history (.read .word l) with
          | .error .outOfBounds => fetch s = (.error (.outOfBounds l), u)
          | .error .unsupportedOperation => fetch s = (.error (.unsupportedOperation .getWord l), u)
          | .ok bs => ∃ b0 b1 b2 b3, bs = [b0, b1, b2, b3] ∧ fetch s = (.ok (b0 ++ b1 ++ b2 ++ b3), u)

/-- The step where pc lies in a Memory Device: the word is its four bytes, the first one most significant,
and the fetch changes nothing (D14, D15; log 13). -/
def Obligations.StepRunsTheBytesAtPc : Prop :=
  ∀ (s : State) (r : Region) (d : MemoryDevice) (i : Instr), s.status = .running → Reaches s .word s.pc r d →
    decodeWord (byteAfter r d s.pc 0 ++ byteAfter r d s.pc 1 ++ byteAfter r d s.pc 2 ++ byteAfter r d s.pc 3)
      = .ok i →
    step s = exec i (s.setPc (s.pc + 4#32))

/-- A word that decodes to nothing raises IllegalInstruction and has no other effect than the pc increment
(D14, log 13; payload D18, log 4). -/
def Obligations.IllegalWordStops : Prop :=
  ∀ (s s' : State) (w : Word) (e : DecodeError), s.status = .running → fetch s = (.ok w, s') →
    decodeWord w = .error e →
    ∃ t, step s = .next t ∧ OnlyStatus (s'.setPc (s.pc + 4#32)) t (.fault (.illegalInstruction w))

/-- A fetch that raises a condition stops the machine with it and leaves pc, the registers, hi and lo, the
topology and every byte of memory as they were (R24, R260; D22). By cause: where no region covers pc, and
where a Memory Device has no four bytes left at pc (no wrap by D16), the status alone changes; a device
that is no Memory Device and signals has been asked once, and nothing but it and the status changes
(R42, R253 to R255; payloads D18, log 4; devices log 5). -/
def Obligations.FailedFetchLeavesPc : Prop :=
  (∀ (s s' : State) (c : FatalCondition), s.status = .running → fetch s = (.error c, s') →
    ∃ t, step s = .next t ∧ t.status = .fault c ∧ t.pc = s.pc ∧ t.regs = s.regs ∧ t.hi = s.hi ∧ t.lo = s.lo ∧
      t.nextHandle = s.nextHandle ∧ topology t.regions = topology s.regions ∧
      ∀ a, peekByte t.regions a = peekByte s.regions a) ∧
  (∀ s : State, s.status = .running → resolve s.regions s.pc = none →
    ∃ t, step s = .next t ∧ OnlyStatus s t (.fault (.unmappedAddress s.pc))) ∧
  (∀ s r d, s.status = .running → resolve s.regions s.pc = some r → r.device = .memory d →
    d.size < (r.translate s.pc).toNat + 4 →
    ∃ t, step s = .next t ∧ OnlyStatus s t (.fault (.outOfBounds (r.translate s.pc)))) ∧
  ∀ s r id history front back, s.status = .running → s.regions = front ++ r :: back →
    r.device = .other id history → (∀ q ∈ front, q.covers s.pc = false) → r.covers s.pc = true →
    ∀ l, l = r.translate s.pc →
      ∃ u, OnlyRegions s u (front ++ { r with device := .other id (history ++ [.read .word l]) } :: back) ∧
        match otherAnswer id history (.read .word l) with
        | .error .outOfBounds => ∃ t, step s = .next t ∧ OnlyStatus u t (.fault (.outOfBounds l))
        | .error .unsupportedOperation =>
          ∃ t, step s = .next t ∧ OnlyStatus u t (.fault (.unsupportedOperation .getWord l))
        | .ok _ => ∃ w, fetch s = (.ok w, u)

/-- No step is taken from a stopped machine (R28). -/
def Obligations.StoppedMachineTakesNoStep : Prop :=
  ∀ s : State, s.status ≠ .running → ∀ t, step s ≠ .next t

/-- A running machine always takes a step: no instruction and no memory content is refused. Rests on the
setting DIV_OVERFLOW = wrap, log 11. -/
def Obligations.RunningMachineAlwaysSteps : Prop :=
  ∀ s : State, s.status = .running → ∃ t, step s = .next t

/-- The only step into Halted is a SYSCALL whose field numbers are rs = 0, rt = 0, shamt = 10 (R28, R230). -/
def Obligations.OnlySyscallTenHalts : Prop :=
  ∀ s t : State, step s = .next t → t.status = .halted →
    ∃ w s' rd, fetch s = (.ok w, s') ∧ decodeWord w = .ok (.syscall 0#5 0#5 rd 10#5)

/-- The stop is precise: a step that ends in a fatal condition has changed no register, not hi, not lo, no
byte of memory, and pc by 4 or not at all (R260; D22). -/
def Obligations.FatalStopIsPrecise : Prop :=
  ∀ (s t : State) (c : FatalCondition), step s = .next t → t.status = .fault c →
    t.regs = s.regs ∧ t.hi = s.hi ∧ t.lo = s.lo ∧ (t.pc = s.pc ∨ t.pc = s.pc + 4#32) ∧
      ∀ a, peekByte t.regions a = peekByte s.regions a

/-- Every step keeps the invariant: memory stays canonical and inside its devices, slot 0 of the register
file stays 0, the handles of the region table stay distinct. -/
def Obligations.StepKeepsInvariant : Prop :=
  ∀ s t : State, s.wf → step s = .next t → t.wf

/-- The state after reset meets the invariant. -/
def Obligations.ResetMeetsInvariant : Prop := State.reset.wf

/-- A run changes what devices hold and nothing else of the region table: not its order, no bound, no remap
flag, no size (R29, R44, R70). -/
def Obligations.RunKeepsTopology : Prop :=
  ∀ (k : Nat) (s t : State), run k s = .next t →
    topology t.regions = topology s.regions ∧ t.nextHandle = s.nextHandle

/-- A run of any length from a running machine ends in a state, and it stops early only in Halted or in a
fatal condition: running longer from a stopped state changes nothing (R285, R286, R290; log 11). -/
def Obligations.RunStopsForGood : Prop :=
  ∀ (k : Nat) (s : State), ∃ t, run k s = .next t ∧ (t.status ≠ .running → ∀ j, run (k + j) s = .next t)

/-- The state after reset, field by field (R280). The zero registers and the zero pc are the parameters
RESET_REGS and RESET_PC at their defaults (log 1, 2), the empty region table is PLATFORM_REGIONS at its
default (log 3). -/
def Obligations.ResetState : Prop :=
  (∀ i, State.reset.readReg i = 0#32) ∧ State.reset.hi = 0#32 ∧ State.reset.lo = 0#32 ∧
  State.reset.pc = 0#32 ∧ State.reset.status = .running ∧ State.reset.regions = []

/-- Where the model places a word for the next step, the next step runs it: exec of its instruction at the
state placed with pc advanced by 4, and nothing in between. The state placed is running, keeps the
invariant, and has pc, every register, hi, lo and every byte outside the four placed as they were. How a
word is placed is the model's choice, log 7; pc + 4 wraps by D14, log 13. -/
def Obligations.PlacedWordRunsNext : Prop :=
  ∀ (s : State) (w : Word) (i : Instr), s.wf → decodeWord w = .ok i →
    ∀ u, u = s.withFetchWord 32 w.toNat →
      step u = exec i (u.setPc (s.pc + 4#32)) ∧
      u.wf ∧ u.status = .running ∧ u.pc = s.pc ∧ u.regs = s.regs ∧ u.hi = s.hi ∧ u.lo = s.lo ∧
      ∀ a : Word, a.toNat < s.pc.toNat ∨ s.pc.toNat + 4 ≤ a.toNat →
        peekByte u.regions a = peekByte s.regions a

/-! ### Rules of the whole machine -/

/-- An instruction that is no branch and no jump leaves pc at the advanced pc (R24). -/
def Obligations.OnlyControlTransferWritesPc : Prop :=
  ∀ (i : Instr) (s t : State), exec i s = .next t → writesPc i = false → t.pc = s.pc

/-- hi and lo are written by multiply, divide and the move-to instructions alone (R26). -/
def Obligations.OnlyMulDivMovesWriteHiLo : Prop :=
  ∀ (i : Instr) (s t : State), exec i s = .next t → writesHiLo i = false → t.hi = s.hi ∧ t.lo = s.lo

/-- Memory is written by the three stores alone: after any other instruction every global address reads as
before (R40). -/
def Obligations.OnlyStoresWriteMemory : Prop :=
  ∀ (i : Instr) (s t : State), exec i s = .next t → writesMemory i = false →
    ∀ a, peekByte t.regions a = peekByte s.regions a

/-- No instruction changes a general register but the one R33 lists for it, and none changes register 0. -/
def Obligations.OnlyTheDestinationIsWritten : Prop :=
  ∀ (i : Instr) (s t : State) (q : RegIdx), exec i s = .next t → t.readReg q ≠ s.readReg q →
    destination i = some q ∧ q ≠ 0#5

/-- For rd = 0 and any R-format function but SYSCALL, execution fails with ZeroRegisterWrite, which carries
the word, and has no other effect (R92; that the test comes before a zero divisor is D4). -/
def Obligations.ZeroDestinationStopsEveryFunction : Prop :=
  ∀ f ∈ [Instr.sll, .srl, .sra, .sllv, .srlv, .srav, .jr, .jalr, .mfhi, .mthi, .mflo, .mtlo, .mult, .multu, .div,
      .divu, .add, .addu, .sub, .subu, .and, .or, .xor, .nor, .slt, .sltu],
    ∀ rs rt shamt s, StopsWith (f rs rt 0#5 shamt) s (.zeroRegisterWrite (encode (f rs rt 0#5 shamt)))

/-- Every instruction that fails the zero-destination test raises ZeroRegisterWrite with its own word before
anything else, so before DivideByZero and before any memory access (R92, R93, R259; D3, D4, D18). -/
def Obligations.ZeroDestinationComesFirst : Prop :=
  ∀ (i : Instr) (s : State), i.wellFormed = false → StopsWith i s (.zeroRegisterWrite (encode i))

/-- The converse: an instruction that passes the test never raises ZeroRegisterWrite (D3, log 13). -/
def Obligations.OnlyZeroDestinationRaisesIt : Prop :=
  ∀ (i : Instr) (s t : State) (w : Word), s.status = .running → exec i s = .next t →
    t.status = .fault (.zeroRegisterWrite w) → i.wellFormed = false

/-! ### Register arithmetic and logic (40_alu_register.md) -/

/-- ADD and SUB (R111, R113): modulo 2^32, no trap. -/
def Obligations.AddSubResults : Prop :=
  RegResult .add (fun a b _ => BitVec.ofNat 32 ((a.toNat + b.toNat) % 2 ^ 32)) ∧
  RegResult .sub (fun a b _ => BitVec.ofInt 32 (((a.toNat : Int) - b.toNat) % 2 ^ 32))

/-- ADDU and SUBU (R112, R114): they wrap too, by the spec's decision D7, so they compute what ADD and SUB
compute (R121). -/
def Obligations.AdduSubuResults : Prop :=
  RegResult .addu (fun a b _ => BitVec.ofNat 32 ((a.toNat + b.toNat) % 2 ^ 32)) ∧
  RegResult .subu (fun a b _ => BitVec.ofInt 32 (((a.toNat : Int) - b.toNat) % 2 ^ 32))

/-- AND, OR, XOR and NOR (R115 to R118). -/
def Obligations.LogicResults : Prop :=
  RegResult .and (fun a b _ => a &&& b) ∧ RegResult .or (fun a b _ => a ||| b) ∧
  RegResult .xor (fun a b _ => a ^^^ b) ∧ RegResult .nor (fun a b _ => ~~~(a ||| b))

/-- SLT compares the signed readings, SLTU the unsigned ones (R119, R120). -/
def Obligations.CompareResults : Prop :=
  RegResult .slt (fun a b _ => if a.toInt < b.toInt then 1#32 else 0#32) ∧
  RegResult .sltu (fun a b _ => if a.toNat < b.toNat then 1#32 else 0#32)

/-! ### Shifts (41_shift.md) -/

/-- SLL, SRL, SRA shift x[rt] by shamt; SRA rounds toward minus infinity (R131 to R133). -/
def Obligations.ImmediateShiftResults : Prop :=
  RegResult .sll (fun _ b n => BitVec.ofNat 32 (b.toNat * 2 ^ n.toNat)) ∧
  RegResult .srl (fun _ b n => BitVec.ofNat 32 (b.toNat / 2 ^ n.toNat)) ∧
  RegResult .sra (fun _ b n => BitVec.ofInt 32 (b.toInt / 2 ^ n.toNat))

/-- SLLV and SRLV shift x[rs] by x[rt], SRAV shifts x[rt] by x[rs], each by the low 5 bits of the amount
(R134 to R136; the 5 bits are the spec's decision D9). -/
def Obligations.VariableShiftResults : Prop :=
  RegResult .sllv (fun a b _ => BitVec.ofNat 32 (a.toNat * 2 ^ (b.toNat % 32))) ∧
  RegResult .srlv (fun a b _ => BitVec.ofNat 32 (a.toNat / 2 ^ (b.toNat % 32))) ∧
  RegResult .srav (fun a b _ => BitVec.ofInt 32 (b.toInt / 2 ^ (a.toNat % 32)))

/-! ### Multiply, divide, hi and lo (42_muldiv_hilo.md) -/

/-- MULT and MULTU: hi and lo together are the exact product; with rd = 0 they stop (R141, R142). -/
def Obligations.MultiplyResults : Prop :=
  ∀ rs rt rd shamt s,
    (rd ≠ 0#5 →
      (∃ t hi lo, exec (.mult rs rt rd shamt) s = .next t ∧ OnlyHiLo s t hi lo ∧
        (hi ++ lo).toInt = (s.readReg rs).toInt * (s.readReg rt).toInt) ∧
      (∃ t hi lo, exec (.multu rs rt rd shamt) s = .next t ∧ OnlyHiLo s t hi lo ∧
        (hi ++ lo).toNat = (s.readReg rs).toNat * (s.readReg rt).toNat)) ∧
    (rd = 0#5 → ∀ mk ∈ [Instr.mult, .multu], ∃ w, StopsWith (mk rs rt rd shamt) s (.zeroRegisterWrite w))

/-- DIV by a divisor that is not 0 (R143, R145): dividend = quotient * divisor + remainder exactly, the
remainder smaller than the divisor and of the dividend's sign (D10); the one overflowing case wraps
(DIV_OVERFLOW = wrap, log 11). -/
def Obligations.DivResult : Prop :=
  ∀ rs rt rd shamt s, rd ≠ 0#5 → s.readReg rt ≠ 0#32 →
    ∃ t hi lo, exec (.div rs rt rd shamt) s = .next t ∧ OnlyHiLo s t hi lo ∧
      if s.readReg rs = 0x80000000#32 ∧ s.readReg rt = 0xFFFFFFFF#32 then lo = 0x80000000#32 ∧ hi = 0#32
      else
        (s.readReg rs).toInt = lo.toInt * (s.readReg rt).toInt + hi.toInt ∧
        hi.toInt.natAbs < (s.readReg rt).toInt.natAbs ∧
        (hi.toInt = 0 ∨ (hi.toInt < 0 ↔ (s.readReg rs).toInt < 0))

/-- DIVU (R144): quotient to lo, remainder, below the divisor, to hi; with rd = 0, and else with a zero
divisor, it stops and leaves both. That rd = 0 comes before a zero divisor is D4 (log 13). -/
def Obligations.DivuResult : Prop :=
  ∀ rs rt rd shamt s,
    (rd ≠ 0#5 → s.readReg rt ≠ 0#32 → ∃ t hi lo, exec (.divu rs rt rd shamt) s = .next t ∧ OnlyHiLo s t hi lo ∧
      (s.readReg rs).toNat = lo.toNat * (s.readReg rt).toNat + hi.toNat ∧ hi.toNat < (s.readReg rt).toNat) ∧
    (rd ≠ 0#5 → s.readReg rt = 0#32 → ∃ w, StopsWith (.divu rs rt rd shamt) s (.divideByZero w)) ∧
    (rd = 0#5 → ∃ w, StopsWith (.divu rs rt rd shamt) s (.zeroRegisterWrite w))

/-- DIV and DIVU by zero raise DivideByZero and leave hi, lo and everything else alone (R256). -/
def Obligations.DivideByZeroStops : Prop :=
  ∀ rs rt rd shamt s, rd ≠ 0#5 → s.readReg rt = 0#32 →
    StopsWith (.div rs rt rd shamt) s (.divideByZero (encode (.div rs rt rd shamt))) ∧
    StopsWith (.divu rs rt rd shamt) s (.divideByZero (encode (.divu rs rt rd shamt)))

/-- MFHI and MFLO copy hi and lo to x[rd]; MTHI and MTLO copy x[rd] to hi and to lo, each leaving the other
alone; with rd = 0 all four stop (R146 to R149). -/
def Obligations.HiLoMoves : Prop :=
  ∀ rs rt rd shamt s,
    (rd ≠ 0#5 →
      (∃ t, exec (.mfhi rs rt rd shamt) s = .next t ∧ OnlyReg s t rd s.hi) ∧
      (∃ t, exec (.mflo rs rt rd shamt) s = .next t ∧ OnlyReg s t rd s.lo) ∧
      (∃ t, exec (.mthi rs rt rd shamt) s = .next t ∧ OnlyHiLo s t (s.readReg rd) s.lo) ∧
      (∃ t, exec (.mtlo rs rt rd shamt) s = .next t ∧ OnlyHiLo s t s.hi (s.readReg rd))) ∧
    (rd = 0#5 → ∀ mk ∈ [Instr.mfhi, .mflo, .mthi, .mtlo],
      ∃ w, StopsWith (mk rs rt rd shamt) s (.zeroRegisterWrite w))

/-! ### Immediates (43_alu_immediate.md) -/

/-- ADDI adds the signed reading of the immediate, ADDIU the unsigned one, both modulo 2^32; with rt = 0 both stop
(R161, R162; D6, D7; that rt = 0 is tested is D3, log 13). -/
def Obligations.AddImmediateResults : Prop :=
  ImmResult .addi (fun a imm => BitVec.ofInt 32 ((a.toNat : Int) + imm.toInt)) ∧
  ImmResult .addiu (fun a imm => BitVec.ofNat 32 (a.toNat + imm.toNat))

/-- SLTI compares signed readings, SLTIU unsigned ones, the immediate zero-extended (R163, R164; D8; SLTIU's
widening is the parameter SLTIU_IMM_EXT at its default, log 10); with rt = 0 both stop (that rt = 0 is tested
is D3, log 13). -/
def Obligations.CompareImmediateResults : Prop :=
  ImmResult .slti (fun a imm => if a.toInt < imm.toInt then 1#32 else 0#32) ∧
  ImmResult .sltiu (fun a imm => if a.toNat < imm.toNat then 1#32 else 0#32)

/-- ANDI, ORI, XORI act on the low half with the immediate, ANDI clearing the upper half, ORI and XORI passing
it; LUI puts the immediate in the upper half and 0 in the lower (R165 to R168; rt = 0 by D3). -/
def Obligations.LogicImmediateResults : Prop :=
  ImmResult .andi (fun a imm => 0#16 ++ (a.extractLsb' 0 16 &&& imm)) ∧
  ImmResult .ori (fun a imm => a.extractLsb' 16 16 ++ (a.extractLsb' 0 16 ||| imm)) ∧
  ImmResult .xori (fun a imm => a.extractLsb' 16 16 ++ (a.extractLsb' 0 16 ^^^ imm)) ∧
  ImmResult .lui (fun _ imm => imm ++ 0#16)

/-- Where the parameters of R6 matter and where they do not: SLTIU's immediate from 0x8000 up, BGEZ at zero,
DIV in the one overflowing case. -/
def Obligations.ParametersMatterOnlyWhereSaid : Prop :=
  (∀ imm : Imm, sltiuImm .zero imm = sltiuImm .sign imm ↔ imm.toNat < 0x8000) ∧
  (∀ v : Word, bgezTaken true v = bgezTaken false v ↔ v ≠ 0#32) ∧
  (∀ a b : Word, signedDivide .wrap a b = signedDivide .refuse a b ↔
    ¬ (a = 0x80000000#32 ∧ b = 0xFFFFFFFF#32))

/-! ### Loads and stores (44_load_store.md, 20_memory.md) -/

/-- The five loads from a Memory Device, at the base register plus the signed displacement (R180), big-endian,
at any alignment, sign- or zero-extended; memory and every other register unchanged (R182 to R186; D14,
D15). -/
def Obligations.LoadResults : Prop :=
  EffectiveAddressRule ∧
  LoadResult .lb .byte (fun m => (m 0).signExtend 32) ∧
  LoadResult .lbu .byte (fun m => (0#24 ++ m 0)) ∧
  LoadResult .lhw .half (fun m => (m 0 ++ m 1).signExtend 32) ∧
  LoadResult .lhwu .half (fun m => (0#16 ++ (m 0 ++ m 1))) ∧
  LoadResult .lw .word (fun m => (m 0 ++ m 1 ++ m 2 ++ m 3))

/-- The three stores into a Memory Device, at the base register plus the signed displacement (R180), most
significant byte first, at any alignment; no other byte, no other region and no register changes (R188 to
R190; D14, D15). The invariant is a premise: in a state that lists a cell
twice a write might not be what is read. -/
def Obligations.StoreResults : Prop :=
  EffectiveAddressRule ∧
  StoreResult .sb .byte (fun v _ => v.extractLsb' 0 8) ∧
  StoreResult .shw .half (fun v i => v.extractLsb' (8 * (1 - i)) 8) ∧
  StoreResult .sw .word (fun v i => v.extractLsb' (8 * (3 - i)) 8)

/-- A load or store at an address, base plus signed displacement (R180; D14), that no region covers raises
UnmappedAddress with that address and changes nothing else (R51, R181, R187, R253; D18). -/
def Obligations.UnmappedAccessStops : Prop :=
  EffectiveAddressRule ∧
  (∀ mk ∈ [Instr.lb, .lbu, .lhw, .lhwu, .lw], ∀ rs rt imm s, rt ≠ 0#5 →
    resolve s.regions (effectiveAddress s rs imm) = none →
    StopsWith (mk rs rt imm) s (.unmappedAddress (effectiveAddress s rs imm))) ∧
  (∀ mk ∈ [Instr.sb, .shw, .sw], ∀ rs rt imm s, resolve s.regions (effectiveAddress s rs imm) = none →
    StopsWith (mk rs rt imm) s (.unmappedAddress (effectiveAddress s rs imm)))

/-- A load or store that starts in a Memory Device's region and does not end inside the device raises
OutOfBounds with the device-local address, and changes nothing, not even the bytes that fit (R47, R254;
no wrap by D16). -/
def Obligations.OutOfBoundsAccessStops : Prop :=
  ∀ p ∈ [(Instr.lb, Width.byte), (.lbu, .byte), (.lhw, .half), (.lhwu, .half), (.lw, .word), (.sb, .byte),
      (.shw, .half), (.sw, .word)],
    ∀ rs rt imm s r d, (p.1 rs rt imm).wellFormed = true →
      resolve s.regions (effectiveAddress s rs imm) = some r → r.device = .memory d →
      d.size < (r.translate (effectiveAddress s rs imm)).toNat + p.2.bytes →
      StopsWith (p.1 rs rt imm) s (.outOfBounds (r.translate (effectiveAddress s rs imm)))

/-- A load from any other device, whatever it answers (R42, R53, U8; log 5): the device is asked once, with
one operation of the load's width at the translated address; what it signals stops the machine
unchanged, and what it answers is loaded; every other device, and memory, is as before. The payloads of the
stops (R254, R255) are D18, log 4. -/
def Obligations.OtherDeviceLoad : Prop :=
  ∀ p ∈ [(Instr.lb, Width.byte, OpName.getByte, signExtendRead .byte), (.lbu, .byte, .getByte, zeroExtendRead .byte),
      (.lhw, .half, .getHalfWord, signExtendRead .half), (.lhwu, .half, .getHalfWord, zeroExtendRead .half),
      (.lw, .word, .getWord, id)],
    ∀ rs rt imm s, rt ≠ 0#5 → ∀ r id history front back,
      s.regions = front ++ r :: back → r.device = .other id history →
      (∀ q ∈ front, q.covers (effectiveAddress s rs imm) = false) →
      r.covers (effectiveAddress s rs imm) = true →
      ∀ l, l = r.translate (effectiveAddress s rs imm) →
        ∃ t u, exec (p.1 rs rt imm) s = .next t ∧
          OnlyRegions s u (front ++ { r with device := .other id (history ++ [.read p.2.1 l]) } :: back) ∧
          match otherAnswer id history (.read p.2.1 l) with
          | .error .outOfBounds => OnlyStatus u t (.fault (.outOfBounds l))
          | .error .unsupportedOperation => OnlyStatus u t (.fault (.unsupportedOperation p.2.2.1 l))
          | .ok bs => bs.length = p.2.1.bytes ∧ OnlyReg u t rt (p.2.2.2 (assembleBytes bs))

/-- A store to any other device, whatever it answers (R42, R53, U8; log 5): the device is given once the bytes
at the translated address; what it signals stops the machine, with nothing else changed. The payloads of the
stops (R254, R255) are D18, log 4. -/
def Obligations.OtherDeviceStore : Prop :=
  ∀ p ∈ [(Instr.sb, Width.byte, OpName.writeByte), (.shw, .half, .writeHalfWord), (.sw, .word, .writeWord)],
    ∀ rs rt imm s r id history front back,
      s.regions = front ++ r :: back → r.device = .other id history →
      (∀ q ∈ front, q.covers (effectiveAddress s rs imm) = false) →
      r.covers (effectiveAddress s rs imm) = true →
      ∀ l data, l = r.translate (effectiveAddress s rs imm) → data = splitBytes p.2.1 (s.readReg rt) →
        ∃ t u, exec (p.1 rs rt imm) s = .next t ∧
          OnlyRegions s u (front ++ { r with device := .other id (history ++ [.write p.2.1 l data]) } :: back) ∧
          match otherAnswer id history (.write p.2.1 l data) with
          | .error .outOfBounds => OnlyStatus u t (.fault (.outOfBounds l))
          | .error .unsupportedOperation => OnlyStatus u t (.fault (.unsupportedOperation p.2.2 l))
          | .ok _ => t = u

/-- Writing a word to an address and reading a word from it returns the same 32 bits, for any address in
bounds of a mapped Memory Device (R68). -/
def Obligations.WordRoundTrip : Prop :=
  ∀ (s : State) (a v : Word) (r : Region) (d : MemoryDevice), s.wf → Reaches s .word a r d →
    ∃ s', memWrite s .word a v = (none, s') ∧ memRead s' .word a = (.ok v, s')

/-- Code that writes code: a word stored over the next instruction is what the next step runs (R66, R288; D14,
log 13). -/
def Obligations.StoredWordIsExecuted : Prop :=
  ∀ rs rt imm s t r d i, s.wf → s.status = .running → effectiveAddress s rs imm = s.pc →
    Reaches s .word s.pc r d → exec (.sw rs rt imm) s = .next t → decodeWord (s.readReg rt) = .ok i →
    step t = exec i (t.setPc (s.pc + 4#32))

/-! ### The Memory Mapper (20_memory.md) -/

/-- Resolution scans the regions in current order and answers the first whose inclusive range contains the
address; no match is UnmappedAddress, whatever the operation (R51; that it carries the address is D18,
log 4). The region resolved gives its device the address less its start if its remap flag is set, which
never goes below zero, and else the address itself (R52). -/
def Obligations.FirstCoveringRegionWins : Prop :=
  ∀ (rs : List Region) (a : Word),
    (∀ r, resolve rs a = some r ↔ ∃ front back, rs = front ++ r :: back ∧
      (r.start.toNat ≤ a.toNat ∧ a.toNat ≤ r.last.toNat) ∧
      ∀ q ∈ front, ¬ (q.start.toNat ≤ a.toNat ∧ a.toNat ≤ q.last.toNat)) ∧
    ((∀ q ∈ rs, ¬ (q.start.toNat ≤ a.toNat ∧ a.toNat ≤ q.last.toNat)) →
      ∀ op, access rs a op = (.error (.unmappedAddress a), rs)) ∧
    ∀ r, resolve rs a = some r →
      (r.remap = true → (r.translate a).toNat + r.start.toNat = a.toNat) ∧
      (r.remap = false → r.translate a = a)

/-- Of two overlapping regions mapped in order A then B, an access to an address of both resolves to B; an
address of A alone resolves to A (R49, R69). -/
def Obligations.LastMappedWins : Prop :=
  ∀ (s : State) (devA devB : Device) (startA lastA startB lastB a : Word) (remapA remapB : Bool),
    startA.toNat ≤ a.toNat → a.toNat ≤ lastA.toNat →
    ∃ r, resolve ((s.mapRegion devA startA lastA remapA).2.mapRegion devB startB lastB remapB).2.regions a = some r ∧
      if startB.toNat ≤ a.toNat ∧ a.toNat ≤ lastB.toNat then
        r.device = devB ∧ r.start = startB ∧ r.last = lastB ∧ r.remap = remapB
      else r.device = devA ∧ r.start = startA ∧ r.last = lastA ∧ r.remap = remapA

/-- Unmapping takes out the region that the handle names, wherever it stands in the table; the others keep
their order, so an address it shadowed resolves to the next region that covers it; nothing else changes
and the invariant holds (R50). Mapping keeps the invariant, and unmapping the region just mapped gives the
table as it was (R49). The form of handles, and that the device goes with its region, are the model's
choice, log 6. -/
def Obligations.UnmapUncovers : Prop :=
  (∀ (s : State) (r : Region) (front back : List Region), s.wf → s.regions = front ++ r :: back →
    ∃ s', s.unmapRegion r.handle = some s' ∧ OnlyRegions s s' (front ++ back) ∧ s'.wf ∧
      ∀ a, (∀ q ∈ front, q.covers a = false) → resolve s'.regions a = resolve back a) ∧
  ∀ (s : State) (dev : Device) (start last : Word) (remap : Bool), s.wf → dev.wf →
    (s.mapRegion dev start last remap).2.wf ∧
    ∃ s', (s.mapRegion dev start last remap).2.unmapRegion (s.mapRegion dev start last remap).1 = some s' ∧
      s'.regions = s.regions

/-! ### Branches and jumps (45_branch_jump.md) -/

/-- The conditional branches (R202 to R207): unscaled byte offset from the advanced pc, no delay slot (D12,
D14). BLEZ and BGTZ test what their names say (log 12); BGEZ at zero is the parameter BGEZ_TAKEN_AT_ZERO
at its default (log 9). -/
def Obligations.BranchResults : Prop :=
  BranchResult .beq (fun a b => a = b) ∧
  BranchResult .bne (fun a b => a ≠ b) ∧
  BranchResult .blez (fun a _ => a.toInt ≤ 0) ∧
  BranchResult .bgtz (fun a _ => 0 < a.toInt) ∧
  BranchResult (fun rs _ imm => .bltz rs imm) (fun a _ => a.toInt < 0) ∧
  BranchResult (fun rs _ imm => .bgez rs imm) (fun a _ => 0 < a.toInt)

/-- BLTZAL and BGEZAL (R201, R208, R209): the link is written first, whether or not the branch is taken (D12;
BGEZAL at zero is the parameter BGEZ_TAKEN_AT_ZERO at its default, log 9; addresses wrap by D14, log 13). -/
def Obligations.LinkingBranchResults : Prop :=
  LinkBranchResult .bltzal (fun v => v.toInt < 0) ∧
  LinkBranchResult .bgezal (fun v => 0 < v.toInt)

/-- J and JAL (R210 to R212): four times the pseudo-address inside the 256 MB segment of the advanced pc; JAL
also writes the advanced pc plus 4 to x[31] (D12; it wraps by D14; log 13). -/
def Obligations.JumpResults : Prop :=
  ∀ (target : Target) (s : State),
    (∃ t pc, exec (.j target) s = .next t ∧ OnlyPc s t pc ∧
      pc.toNat = s.pc.toNat / 2 ^ 28 * 2 ^ 28 + target.toNat * 4) ∧
    (∃ t u pc, exec (.jal target) s = .next t ∧ OnlyReg s u 31#5 (s.pc + 4#32) ∧ OnlyPc u t pc ∧
      pc.toNat = s.pc.toNat / 2 ^ 28 * 2 ^ 28 + target.toNat * 4)

/-- JR and JALR copy all 32 bits of x[rs] to pc and write no register; with rd = 0 they stop with their word (R213,
R214; that the stop carries the word is D18, log 4). -/
def Obligations.RegisterJumpResults : Prop :=
  ∀ mk ∈ [Instr.jr, .jalr], ∀ rs rt rd shamt s,
    (rd ≠ 0#5 → ∃ t, exec (mk rs rt rd shamt) s = .next t ∧ OnlyPc s t (s.readReg rs)) ∧
    (rd = 0#5 → StopsWith (mk rs rt rd shamt) s (.zeroRegisterWrite (encode (mk rs rt rd shamt))))

/-! ### SYSCALL and the refused classes (46_system.md) -/

/-- SYSCALL halts if its field numbers are rs = 0, rt = 0, shamt = 10, whatever rd, and otherwise does nothing
at all (R230; D11). -/
def Obligations.SyscallResult : Prop :=
  ∀ rs rt rd shamt s, ∃ t, exec (.syscall rs rt rd shamt) s = .next t ∧
    (rs = 0#5 ∧ rt = 0#5 ∧ shamt = 10#5 → OnlyStatus s t .halted) ∧
    (¬ (rs = 0#5 ∧ rt = 0#5 ∧ shamt = 10#5) → t = s)

/-- Each of the 16 refused opcodes raises NotImplemented with its word and has no other effect (R231 to R238;
which opcodes these are is D19). -/
def Obligations.RefusedClassesStop : Prop :=
  ∀ f ∈ [Instr.lwl, .lwr, .swl, .swr, .lwc0, .lwc1, .lwc2, .lwc3, .swc0, .swc1, .swc2, .swc3, .cop0, .cop1, .cop2,
      .cop3],
    ∀ bits s, StopsWith (f bits) s (.notImplemented (encode (f bits)))
end

