-- ==== Sys2Proof/Laws/Bytes.lean ====
section
/-! SUPPORT. The laws of byte order (20_memory.md R43, R55 to R57): assembling and splitting. -/

namespace Sys2Proof

/-- Bit `k` of four bytes set side by side. -/
theorem append_four_getLsbD (b0 b1 b2 b3 : Byte) (k : Nat) :
    (b0 ++ b1 ++ b2 ++ b3 : Word).getLsbD k =
      if k < 8 then b3.getLsbD k else if k < 16 then b2.getLsbD (k - 8)
      else if k < 24 then b1.getLsbD (k - 16) else b0.getLsbD (k - 24) := by
  simp only [BitVec.getLsbD_append, Nat.sub_sub]
  grind

/-- Four bytes assembled: the first one most significant. -/
theorem assemble_four (b0 b1 b2 b3 : Byte) : assembleBytes [b0, b1, b2, b3] = b0 ++ b1 ++ b2 ++ b3 := by
  apply BitVec.eq_of_getLsbD_eq
  intro k hk
  rw [append_four_getLsbD]
  simp only [assembleBytes, List.foldl]
  interval_cases k <;> simp

/-- Two bytes assembled, as the low half of a word. -/
theorem assemble_two (b0 b1 : Byte) : assembleBytes [b0, b1] = (b0 ++ b1).setWidth 32 := by
  apply BitVec.eq_of_getLsbD_eq
  intro k hk
  simp only [assembleBytes, List.foldl, BitVec.getLsbD_setWidth, BitVec.getLsbD_append]
  interval_cases k <;> simp

/-- One byte assembled, as the low byte of a word. -/
theorem assemble_one (b0 : Byte) : assembleBytes [b0] = b0.setWidth 32 := by
  simp [assembleBytes]

/-- Assembling the bytes of a word gives the word back (R68). -/
@[simp] theorem assemble_split_word (v : Word) : assembleBytes (splitBytes .word v) = v := by
  rw [splitBytes, assemble_four]
  apply BitVec.eq_of_getLsbD_eq
  intro k hk
  rw [append_four_getLsbD]
  interval_cases k <;> simp

/-- A write of width `n` carries `n` bytes (R56). -/
@[simp] theorem splitBytes_length (n : Width) (v : Word) : (splitBytes n v).length = n.bytes := by
  cases n <;> rfl

end Sys2Proof
end

