-- ==== Sys2Proof/Laws/Decode.lean ====
section
/-! SUPPORT. Every field of an encoded word reads back (30_encoding.md R81 to R83), and a word is the fields
it is made of. -/

namespace Sys2Proof

/-! ### The bits of an encoded word -/

theorem encodeR_getLsbD (f : BitVec 6) (rs rt rd : RegIdx) (sh : Shamt) (k : Nat) :
    (encodeR f rs rt rd sh).getLsbD k =
      if k < 6 then f.getLsbD k else if k < 11 then sh.getLsbD (k - 6) else if k < 16 then rd.getLsbD (k - 11)
      else if k < 21 then rt.getLsbD (k - 16) else if k < 26 then rs.getLsbD (k - 21) else false := by
  simp only [encodeR, BitVec.getLsbD_append, BitVec.getLsbD_zero]
  grind

theorem encodeI_getLsbD (op : BitVec 6) (rs rt : BitVec 5) (imm : Imm) (k : Nat) :
    (encodeI op rs rt imm).getLsbD k =
      if k < 16 then imm.getLsbD k else if k < 21 then rt.getLsbD (k - 16)
      else if k < 26 then rs.getLsbD (k - 21) else op.getLsbD (k - 26) := by
  simp only [encodeI, BitVec.getLsbD_append]
  grind

theorem encodeJ_getLsbD (op : BitVec 6) (target : Target) (k : Nat) :
    (encodeJ op target).getLsbD k = if k < 26 then target.getLsbD k else op.getLsbD (k - 26) := by
  simp only [encodeJ, BitVec.getLsbD_append]

/-! ### Fields of an encoded word -/

@[simp] theorem fieldOp_encodeR (f : BitVec 6) (rs rt rd : RegIdx) (sh : Shamt) :
    fieldOp (encodeR f rs rt rd sh) = 0#6 := by
  apply BitVec.eq_of_getLsbD_eq
  intro k hk
  simp only [fieldOp, BitVec.getLsbD_extractLsb', encodeR_getLsbD]
  interval_cases k <;> simp

@[simp] theorem fieldRs_encodeR (f : BitVec 6) (rs rt rd : RegIdx) (sh : Shamt) :
    fieldRs (encodeR f rs rt rd sh) = rs := by
  apply BitVec.eq_of_getLsbD_eq
  intro k hk
  simp only [fieldRs, BitVec.getLsbD_extractLsb', encodeR_getLsbD]
  interval_cases k <;> simp

@[simp] theorem fieldRt_encodeR (f : BitVec 6) (rs rt rd : RegIdx) (sh : Shamt) :
    fieldRt (encodeR f rs rt rd sh) = rt := by
  apply BitVec.eq_of_getLsbD_eq
  intro k hk
  simp only [fieldRt, BitVec.getLsbD_extractLsb', encodeR_getLsbD]
  interval_cases k <;> simp

@[simp] theorem fieldRd_encodeR (f : BitVec 6) (rs rt rd : RegIdx) (sh : Shamt) :
    fieldRd (encodeR f rs rt rd sh) = rd := by
  apply BitVec.eq_of_getLsbD_eq
  intro k hk
  simp only [fieldRd, BitVec.getLsbD_extractLsb', encodeR_getLsbD]
  interval_cases k <;> simp

@[simp] theorem fieldShamt_encodeR (f : BitVec 6) (rs rt rd : RegIdx) (sh : Shamt) :
    fieldShamt (encodeR f rs rt rd sh) = sh := by
  apply BitVec.eq_of_getLsbD_eq
  intro k hk
  simp only [fieldShamt, BitVec.getLsbD_extractLsb', encodeR_getLsbD]
  interval_cases k <;> simp

@[simp] theorem fieldFunct_encodeR (f : BitVec 6) (rs rt rd : RegIdx) (sh : Shamt) :
    fieldFunct (encodeR f rs rt rd sh) = f := by
  apply BitVec.eq_of_getLsbD_eq
  intro k hk
  simp only [fieldFunct, BitVec.getLsbD_extractLsb', encodeR_getLsbD]
  interval_cases k <;> simp

@[simp] theorem fieldOp_encodeI (op : BitVec 6) (rs rt : BitVec 5) (imm : Imm) :
    fieldOp (encodeI op rs rt imm) = op := by
  apply BitVec.eq_of_getLsbD_eq
  intro k hk
  simp only [fieldOp, BitVec.getLsbD_extractLsb', encodeI_getLsbD]
  interval_cases k <;> simp

@[simp] theorem fieldRs_encodeI (op : BitVec 6) (rs rt : BitVec 5) (imm : Imm) :
    fieldRs (encodeI op rs rt imm) = rs := by
  apply BitVec.eq_of_getLsbD_eq
  intro k hk
  simp only [fieldRs, BitVec.getLsbD_extractLsb', encodeI_getLsbD]
  interval_cases k <;> simp

@[simp] theorem fieldRt_encodeI (op : BitVec 6) (rs rt : BitVec 5) (imm : Imm) :
    fieldRt (encodeI op rs rt imm) = rt := by
  apply BitVec.eq_of_getLsbD_eq
  intro k hk
  simp only [fieldRt, BitVec.getLsbD_extractLsb', encodeI_getLsbD]
  interval_cases k <;> simp

@[simp] theorem fieldImm_encodeI (op : BitVec 6) (rs rt : BitVec 5) (imm : Imm) :
    fieldImm (encodeI op rs rt imm) = imm := by
  apply BitVec.eq_of_getLsbD_eq
  intro k hk
  simp only [fieldImm, BitVec.getLsbD_extractLsb', encodeI_getLsbD]
  interval_cases k <;> simp

@[simp] theorem fieldOp_encodeJ (op : BitVec 6) (target : Target) :
    fieldOp (encodeJ op target) = op := by
  apply BitVec.eq_of_getLsbD_eq
  intro k hk
  simp only [fieldOp, BitVec.getLsbD_extractLsb', encodeJ_getLsbD]
  interval_cases k <;> simp

@[simp] theorem fieldTarget_encodeJ (op : BitVec 6) (target : Target) :
    fieldTarget (encodeJ op target) = target := by
  apply BitVec.eq_of_getLsbD_eq
  intro k hk
  simp only [fieldTarget, BitVec.getLsbD_extractLsb', encodeJ_getLsbD]
  interval_cases k <;> simp

/-! ### What the two second-level maps answer -/

/-- An instruction that the function map R87 answers encodes to the R-format word of that function. -/
theorem decodeSpecial_encode (f : BitVec 6) (rs rt rd : RegIdx) (sh : Shamt) (i : Instr)
    (h : decodeSpecial f rs rt rd sh = .ok i) : encode i = encodeR f rs rt rd sh := by
  obtain ⟨⟨f, hf⟩⟩ := f
  interval_cases f <;> first | (cases h; rfl) | cases h

/-- An instruction that the REGIMM map R89 answers encodes to the REGIMM word of that code. -/
theorem decodeRegimm_encode (rt : BitVec 5) (rs : RegIdx) (imm : Imm) (i : Instr)
    (h : decodeRegimm rt rs imm = .ok i) : encode i = encodeI 0x01#6 rs rt imm := by
  obtain ⟨⟨k, hk⟩⟩ := rt
  interval_cases k <;> first | (cases h; rfl) | cases h

/-- The bytes of a word decode as the word. -/
@[simp] theorem decodeBytes_splitBytes (w : Word) : decodeBytes (splitBytes .word w) = decodeWord w := by
  conv_rhs => rw [← assemble_split_word w]
  rfl

/-! ### A word from its fields -/

theorem encodeR_fields (w : Word) (h : fieldOp w = 0#6) :
    encodeR (fieldFunct w) (fieldRs w) (fieldRt w) (fieldRd w) (fieldShamt w) = w := by
  apply BitVec.eq_of_getLsbD_eq
  intro k hk
  have hop : ∀ j, j < 6 → w.getLsbD (26 + j) = false := fun j hj => by
    have := congrArg (fun v => v.getLsbD j) h
    simpa [fieldOp, hj] using this
  have := hop 0; have := hop 1; have := hop 2; have := hop 3; have := hop 4; have := hop 5
  simp only [encodeR_getLsbD, fieldFunct, fieldRs, fieldRt, fieldRd, fieldShamt, BitVec.getLsbD_extractLsb']
  interval_cases k <;> simp_all

theorem encodeI_fields (w : Word) : encodeI (fieldOp w) (fieldRs w) (fieldRt w) (fieldImm w) = w := by
  apply BitVec.eq_of_getLsbD_eq
  intro k hk
  simp only [encodeI_getLsbD, fieldOp, fieldRs, fieldRt, fieldImm, BitVec.getLsbD_extractLsb']
  interval_cases k <;> simp

theorem encodeJ_fields (w : Word) : encodeJ (fieldOp w) (fieldTarget w) = w := by
  apply BitVec.eq_of_getLsbD_eq
  intro k hk
  simp only [encodeJ_getLsbD, fieldOp, fieldTarget, BitVec.getLsbD_extractLsb']
  interval_cases k <;> simp

end Sys2Proof
end

