-- ==== Sys2Proof/Laws/Memory.lean ====
section
/-! SUPPORT. The laws of memory and of the Memory Device: read after write, every other place alone, the
canonical form kept by every operation (20_memory.md R44 to R47). -/

namespace Sys2Proof.Machine

/-! ### Cells -/

theorem Memory.read_cons (a : Nat) (b : Byte) (m : Memory) (k : Nat) :
    Memory.read ((a, b) :: m) k = if a = k then b else Memory.read m k := rfl

/-- An address below every listed one reads as unlisted. -/
theorem Memory.read_unlisted (m : Memory) (k : Nat) (h : ∀ c ∈ m, k < c.1) :
    m.read k = Config.unlistedByte := by
  induction m with
  | nil => rfl
  | cons c m ih =>
    obtain ⟨a, b⟩ := c
    have ha : k < a := h (a, b) (by simp)
    rw [Memory.read_cons, if_neg (by omega)]
    exact ih fun c hc => h c (List.mem_cons_of_mem _ hc)

/-- Every cell after a write is an old cell or the cell written. -/
theorem Memory.mem_write (m : Memory) (k : Nat) (v : Byte) (c : Host.Cell) (h : c ∈ m.write k v) :
    c ∈ m ∨ (c = (k, v) ∧ v ≠ Config.unlistedByte) := by
  induction m with
  | nil =>
    simp only [Memory.write] at h
    split at h
    · simp at h
    · exact .inr ⟨by simpa using h, ‹_›⟩
  | cons d m ih =>
    obtain ⟨a, b⟩ := d
    simp only [Memory.write] at h
    split at h
    · split at h
      · exact .inl h
      · rcases List.mem_cons.1 h with h | h
        · exact .inr ⟨h, ‹_›⟩
        · exact .inl h
    · split at h
      · split at h
        · exact .inl (List.mem_cons_of_mem _ h)
        · rcases List.mem_cons.1 h with h | h
          · exact .inr ⟨h, ‹_›⟩
          · exact .inl (List.mem_cons_of_mem _ h)
      · rcases List.mem_cons.1 h with h | h
        · exact .inl (by simp [h])
        · rcases ih h with h | h
          · exact .inl (List.mem_cons_of_mem _ h)
          · exact .inr h

/-- A write keeps the canonical form. -/
theorem Memory.write_wf (m : Memory) (k : Nat) (v : Byte) (h : m.wf) : (m.write k v).wf := by
  refine ⟨?_, fun c hc => ?_⟩
  · obtain ⟨hs, -⟩ := h
    induction m with
    | nil =>
      simp only [Memory.write]
      split <;> simp
    | cons d m ih =>
      obtain ⟨a, b⟩ := d
      obtain ⟨hd, ht⟩ := List.pairwise_cons.1 hs
      simp only [Memory.write]
      split
      · split
        · exact hs
        · refine List.pairwise_cons.2 ⟨fun c hc => ?_, hs⟩
          rcases List.mem_cons.1 hc with rfl | hc
          · assumption
          · exact lt_trans ‹_› (hd c hc)
      · split
        · subst_vars
          split
          · exact ht
          · exact List.pairwise_cons.2 ⟨hd, ht⟩
        · refine List.pairwise_cons.2 ⟨fun c hc => ?_, ih ht⟩
          rcases Memory.mem_write m k v c hc with hc | ⟨rfl, -⟩
          · exact hd c hc
          · simp only
            omega
  · rcases Memory.mem_write m k v c hc with hc | ⟨rfl, hv⟩
    · exact h.2 c hc
    · exact hv

/-- Read after write, at the address written and at every other one. -/
theorem Memory.read_write (m : Memory) (k j : Nat) (v : Byte) (h : m.wf) :
    (m.write k v).read j = if j = k then v else m.read j := by
  obtain ⟨hs, -⟩ := h
  induction m with
  | nil =>
    simp only [Memory.write]
    split
    · subst_vars
      split <;> rfl
    · simp only [Memory.read_cons, eq_comm]
  | cons d m ih =>
    obtain ⟨a, b⟩ := d
    obtain ⟨hd, ht⟩ := List.pairwise_cons.1 hs
    have hlow : ∀ k, k ≤ a → Memory.read m k = Config.unlistedByte := fun k hk =>
      Memory.read_unlisted m k fun c hc => lt_of_le_of_lt hk (hd c hc)
    simp only [Memory.write]
    split
    · split
      · by_cases hj : j = k
        · rw [if_pos hj, Memory.read_cons, if_neg (by omega), hlow j (by omega)]
          exact Eq.symm ‹_›
        · rw [if_neg hj]
      · rw [Memory.read_cons]
        simp only [eq_comm]
    · split
      · subst_vars
        split
        · by_cases hj : j = a
          · rw [if_pos hj, hlow j (by omega)]
            exact Eq.symm ‹_›
          · rw [if_neg hj, Memory.read_cons, if_neg (by omega)]
        · rw [Memory.read_cons, Memory.read_cons]
          by_cases hj : j = a
          · simp [hj]
          · rw [if_neg (by omega), if_neg hj, if_neg (by omega)]
      · rw [Memory.read_cons, Memory.read_cons, ih ht]
        by_cases ha : a = j
        · subst_vars
          rw [if_pos rfl, if_pos rfl, if_neg (by omega)]
        · rw [if_neg ha, if_neg ha]

/-! ### Runs of bytes -/

theorem Memory.writeBytes_cons (m : Memory) (k : Nat) (b : Byte) (bs : List Byte) :
    m.writeBytes k (b :: bs) = (m.write k b).writeBytes (k + 1) bs := rfl

/-- Writing bytes keeps the canonical form. -/
theorem Memory.writeBytes_wf (m : Memory) (k : Nat) (bs : List Byte) (h : m.wf) :
    (m.writeBytes k bs).wf := by
  induction bs generalizing m k with
  | nil => exact h
  | cons b bs ih => exact ih _ _ (Memory.write_wf m k b h)

/-- Every cell after writing bytes is an old cell or lies in the range written. -/
theorem Memory.mem_writeBytes (m : Memory) (k : Nat) (bs : List Byte) (c : Host.Cell)
    (h : c ∈ m.writeBytes k bs) : c ∈ m ∨ (k ≤ c.1 ∧ c.1 < k + bs.length) := by
  induction bs generalizing m k with
  | nil => exact .inl h
  | cons b bs ih =>
    simp only [List.length_cons]
    rcases ih _ _ h with h | h
    · rcases Memory.mem_write m k b c h with h | ⟨rfl, -⟩
      · exact .inl h
      · exact .inr ⟨le_refl _, by simp only; omega⟩
    · exact .inr ⟨by omega, by omega⟩

/-- What every address reads as after writing bytes: the byte written there, or what it read before. -/
theorem Memory.read_writeBytes (m : Memory) (k j : Nat) (bs : List Byte) (h : m.wf) :
    (m.writeBytes k bs).read j =
      if k ≤ j then (if hj : j - k < bs.length then bs[j - k] else m.read j) else m.read j := by
  induction bs generalizing m k with
  | nil => simp [Memory.writeBytes]
  | cons b bs ih =>
    rw [Memory.writeBytes_cons, ih _ _ (Memory.write_wf m k b h), Memory.read_write m k j b h]
    rcases lt_trichotomy j k with hjk | rfl | hjk
    · rw [if_neg (by omega), if_neg (by omega), if_neg (by omega)]
    · simp
    · have e : j - k = (j - (k + 1)) + 1 := by omega
      rw [if_pos (show k + 1 ≤ j by omega), if_pos (show k ≤ j by omega), if_neg (show ¬ j = k by omega)]
      simp only [e, List.length_cons, Nat.add_lt_add_iff_right, List.getElem_cons_succ]

/-! ### The Memory Device -/

theorem MemoryDevice.new_wf (size : Nat) : (MemoryDevice.new size).wf :=
  ⟨⟨List.Pairwise.nil, by simp [MemoryDevice.new]⟩, by simp [MemoryDevice.new]⟩

/-- All a write of the device can do (R46, R47). -/
theorem MemoryDevice.write_cases (d : MemoryDevice) (n : Width) (l : Word) (data : List Byte) :
    (d.inBounds n l ∧ d.write n l data = .ok { d with mem := d.mem.writeBytes l.toNat data }) ∨
    (¬ d.inBounds n l ∧ d.write n l data = .error .outOfBounds) := by
  by_cases h : d.inBounds n l
  · exact .inl ⟨h, if_pos h⟩
  · exact .inr ⟨h, if_neg h⟩

/-- All a read of the device can answer (R45, R47). -/
theorem MemoryDevice.read_cases (d : MemoryDevice) (n : Width) (l : Word) :
    (d.inBounds n l ∧ d.read n l = .ok (d.mem.readBytes l.toNat n.bytes)) ∨
    (¬ d.inBounds n l ∧ d.read n l = .error .outOfBounds) := by
  by_cases h : d.inBounds n l
  · exact .inl ⟨h, if_pos h⟩
  · exact .inr ⟨h, if_neg h⟩

/-- A write of as many bytes as the operation's width keeps the device's canonical form. -/
theorem MemoryDevice.write_wf (d d' : MemoryDevice) (n : Width) (l : Word) (data : List Byte)
    (hd : d.wf) (hl : data.length = n.bytes) (h : d.write n l data = .ok d') : d'.wf := by
  rcases d.write_cases n l data with ⟨hb, e⟩ | ⟨-, e⟩
  · obtain rfl : _ = d' := Except.ok.inj (e.symm.trans h)
    refine ⟨Memory.writeBytes_wf _ _ _ hd.1, fun c hc => ?_⟩
    rcases Memory.mem_writeBytes _ _ _ c hc with hc | ⟨-, hc⟩
    · exact hd.2 c hc
    · simp only
      unfold MemoryDevice.inBounds at hb
      omega
  · rw [e] at h
    cases h

end Sys2Proof.Machine
end

