-- ==== Sys2Proof/Laws/Mapper.lean ====
section
/-! SUPPORT. All the Memory Mapper can do (20_memory.md R51 to R54), said once. -/

namespace Sys2Proof.Machine

theorem resolve_nil (a : Word) : resolve [] a = none := rfl

theorem resolve_cons (r : Region) (rs : List Region) (a : Word) :
    resolve (r :: rs) a = if r.covers a then some r else resolve rs a := by
  by_cases h : r.covers a <;> simp [resolve, h]

/-- Resolution answers a region of the table that covers the address. -/
theorem resolve_some (rs : List Region) (a : Word) (r : Region) (h : resolve rs a = some r) :
    r ∈ rs ∧ r.covers a = true :=
  ⟨List.mem_of_find?_eq_some h, by simpa using List.find?_some h⟩

/-- An access to an address that no region covers (R51). -/
theorem access_unmapped (rs : List Region) (a : Word) (op : Word → DeviceOp) (h : resolve rs a = none) :
    access rs a op = (.error (.unmappedAddress a), rs) := by
  induction rs with
  | nil => rfl
  | cons r rs ih =>
    rw [resolve_cons] at h
    split at h
    · cases h
    · simp [access, *]

/-- An access to a covered address is one operation of the device resolved, at the translated address
(R53), and the table afterwards is the table with that one region's device replaced. -/
theorem access_mapped (rs : List Region) (a : Word) (op : Word → DeviceOp) (r : Region)
    (h : resolve rs a = some r) :
    ∃ front back, rs = front ++ r :: back ∧ (∀ q ∈ front, q.covers a = false) ∧
      access rs a op =
        (passOn (op (r.translate a)) (r.device.perform (op (r.translate a))).1,
         front ++ { r with device := (r.device.perform (op (r.translate a))).2 } :: back) := by
  induction rs with
  | nil => cases h
  | cons q rs ih =>
    rw [resolve_cons] at h
    split at h <;> rename_i hc
    · obtain rfl : q = r := Option.some.inj h
      exact ⟨[], rs, rfl, by simp, by simp [access, *]⟩
    · obtain ⟨front, back, e, hf, ha⟩ := ih h
      have hq : q.covers a = false := by simpa using hc
      refine ⟨q :: front, back, by simp [e], ?_, by simp [access, hq, ha]⟩
      intro p hp
      rcases List.mem_cons.1 hp with rfl | hp
      · exact hq
      · exact hf p hp

/-- Whether an access hits or misses, the table afterwards is the table before with at most one device
replaced, and that device is what an operation left. -/
theorem access_regions (rs : List Region) (a : Word) (op : Word → DeviceOp) :
    (access rs a op).2 = rs ∨
    ∃ front r back, rs = front ++ r :: back ∧ resolve rs a = some r ∧
      (access rs a op).2 = front ++ { r with device := (r.device.perform (op (r.translate a))).2 } :: back := by
  cases h : resolve rs a with
  | none => exact .inl (by rw [access_unmapped rs a op h])
  | some r =>
    obtain ⟨front, back, e, -, ha⟩ := access_mapped rs a op r h
    exact .inr ⟨front, r, back, e, rfl, by rw [ha]⟩

/-- Resolution in a table one region of which has had its device replaced: as before, with that region. -/
theorem resolve_replace (front back : List Region) (r : Region) (dev : Device) (a : Word) :
    resolve (front ++ { r with device := dev } :: back) a =
      match resolve front a with
      | some q => some q
      | none => if r.covers a then some { r with device := dev } else resolve back a := by
  induction front with
  | nil => exact resolve_cons _ _ _
  | cons q front ih =>
    simp only [List.cons_append, resolve_cons, ih]
    by_cases h : q.covers a <;> simp [h]

/-- Regions none of which covers the address resolve to none. -/
theorem resolve_none_of_forall (rs : List Region) (a : Word) (h : ∀ q ∈ rs, q.covers a = false) :
    resolve rs a = none := by
  simp only [resolve, List.find?_eq_none]
  intro q hq
  simp [h q hq]

/-! ### One operation of a device -/

@[simp] theorem Device.perform_kind (d : Device) (op : DeviceOp) : (d.perform op).2.kind = d.kind := by
  cases d with
  | other => rfl
  | memory m =>
    cases op with
    | read => rfl
    | write n l data =>
      rcases m.write_cases n l data with ⟨-, e⟩ | ⟨-, e⟩ <;>
        simp [Device.perform, MemoryDevice.perform, e, Device.kind]

/-- A read never changes a Memory Device (R45). -/
@[simp] theorem Device.perform_memory_read (d : MemoryDevice) (n : Width) (l : Word) :
    (Device.memory d).perform (.read n l) = (d.read n l, .memory d) := rfl

/-- An operation of a device keeps its canonical form, if a write carries as many bytes as its width. -/
theorem Device.perform_wf (d : Device) (op : DeviceOp) (hd : d.wf)
    (hop : ∀ n l data, op = .write n l data → data.length = n.bytes) : (d.perform op).2.wf := by
  cases d with
  | other => exact trivial
  | memory m =>
    cases op with
    | read => exact hd
    | write n l data =>
      simp only [Device.perform, MemoryDevice.perform]
      cases e : m.write n l data with
      | error => exact hd
      | ok m' => exact MemoryDevice.write_wf m m' n l data hd (hop n l data rfl) e

/-- What any access keeps: the topology, and the canonical form of every device. -/
theorem access_topology (rs : List Region) (a : Word) (op : Word → DeviceOp) :
    topology (access rs a op).2 = topology rs := by
  rcases access_regions rs a op with e | ⟨front, r, back, e, -, ha⟩
  · rw [e]
  · rw [ha, e]
    simp [topology, Region.shape]

theorem access_wf (rs : List Region) (a : Word) (op : Word → DeviceOp) (h : ∀ r ∈ rs, r.device.wf)
    (hop : ∀ k n l data, op k = .write n l data → data.length = n.bytes) :
    ∀ r ∈ (access rs a op).2, r.device.wf := by
  rcases access_regions rs a op with e | ⟨front, r, back, e, -, ha⟩
  · rwa [e]
  · rw [ha]
    subst e
    intro q hq
    rcases List.mem_append.1 hq with hq | hq
    · exact h q (by simp [hq])
    · rcases List.mem_cons.1 hq with rfl | hq
      · exact Device.perform_wf _ _ (h r (by simp)) fun n l data e => hop _ n l data e
      · exact h q (by simp [hq])

/-- The handles of a table are a part of its topology. -/
theorem topology_handles (rs : List Region) :
    rs.map Region.handle = (topology rs).map RegionShape.handle := by
  simp [topology, Region.shape]

end Sys2Proof.Machine
end

