-- ==== Sys2Proof/Laws/State.lean ====
section
/-! SUPPORT. One lemma per field per update of the state, and reading a register after each update. -/

namespace Sys2Proof.Machine

@[simp] theorem State.setPc_regs (s : State) (v : Word) : (s.setPc v).regs = s.regs := rfl
@[simp] theorem State.setPc_pc (s : State) (v : Word) : (s.setPc v).pc = v := rfl
@[simp] theorem State.setPc_hi (s : State) (v : Word) : (s.setPc v).hi = s.hi := rfl
@[simp] theorem State.setPc_lo (s : State) (v : Word) : (s.setPc v).lo = s.lo := rfl
@[simp] theorem State.setPc_status (s : State) (v : Word) : (s.setPc v).status = s.status := rfl
@[simp] theorem State.setPc_regions (s : State) (v : Word) : (s.setPc v).regions = s.regions := rfl
@[simp] theorem State.setPc_nextHandle (s : State) (v : Word) : (s.setPc v).nextHandle = s.nextHandle := rfl

@[simp] theorem State.setPc_readReg (s : State) (v : Word) (i : RegIdx) :
    (s.setPc v).readReg i = s.readReg i := rfl

@[simp] theorem State.setHi_regs (s : State) (v : Word) : (s.setHi v).regs = s.regs := rfl
@[simp] theorem State.setHi_pc (s : State) (v : Word) : (s.setHi v).pc = s.pc := rfl
@[simp] theorem State.setHi_hi (s : State) (v : Word) : (s.setHi v).hi = v := rfl
@[simp] theorem State.setHi_lo (s : State) (v : Word) : (s.setHi v).lo = s.lo := rfl
@[simp] theorem State.setHi_status (s : State) (v : Word) : (s.setHi v).status = s.status := rfl
@[simp] theorem State.setHi_regions (s : State) (v : Word) : (s.setHi v).regions = s.regions := rfl
@[simp] theorem State.setHi_nextHandle (s : State) (v : Word) : (s.setHi v).nextHandle = s.nextHandle := rfl

@[simp] theorem State.setHi_readReg (s : State) (v : Word) (i : RegIdx) :
    (s.setHi v).readReg i = s.readReg i := rfl

@[simp] theorem State.setLo_regs (s : State) (v : Word) : (s.setLo v).regs = s.regs := rfl
@[simp] theorem State.setLo_pc (s : State) (v : Word) : (s.setLo v).pc = s.pc := rfl
@[simp] theorem State.setLo_hi (s : State) (v : Word) : (s.setLo v).hi = s.hi := rfl
@[simp] theorem State.setLo_lo (s : State) (v : Word) : (s.setLo v).lo = v := rfl
@[simp] theorem State.setLo_status (s : State) (v : Word) : (s.setLo v).status = s.status := rfl
@[simp] theorem State.setLo_regions (s : State) (v : Word) : (s.setLo v).regions = s.regions := rfl
@[simp] theorem State.setLo_nextHandle (s : State) (v : Word) : (s.setLo v).nextHandle = s.nextHandle := rfl

@[simp] theorem State.setLo_readReg (s : State) (v : Word) (i : RegIdx) :
    (s.setLo v).readReg i = s.readReg i := rfl

@[simp] theorem State.setStatus_regs (s : State) (st : RunStatus) : (s.setStatus st).regs = s.regs := rfl
@[simp] theorem State.setStatus_pc (s : State) (st : RunStatus) : (s.setStatus st).pc = s.pc := rfl
@[simp] theorem State.setStatus_hi (s : State) (st : RunStatus) : (s.setStatus st).hi = s.hi := rfl
@[simp] theorem State.setStatus_lo (s : State) (st : RunStatus) : (s.setStatus st).lo = s.lo := rfl
@[simp] theorem State.setStatus_status (s : State) (st : RunStatus) : (s.setStatus st).status = st := rfl
@[simp] theorem State.setStatus_regions (s : State) (st : RunStatus) : (s.setStatus st).regions = s.regions := rfl
@[simp] theorem State.setStatus_nextHandle (s : State) (st : RunStatus) : (s.setStatus st).nextHandle = s.nextHandle := rfl

@[simp] theorem State.setStatus_readReg (s : State) (st : RunStatus) (i : RegIdx) :
    (s.setStatus st).readReg i = s.readReg i := rfl

@[simp] theorem State.setRegions_regs (s : State) (rs : List Region) : (s.setRegions rs).regs = s.regs := rfl
@[simp] theorem State.setRegions_pc (s : State) (rs : List Region) : (s.setRegions rs).pc = s.pc := rfl
@[simp] theorem State.setRegions_hi (s : State) (rs : List Region) : (s.setRegions rs).hi = s.hi := rfl
@[simp] theorem State.setRegions_lo (s : State) (rs : List Region) : (s.setRegions rs).lo = s.lo := rfl
@[simp] theorem State.setRegions_status (s : State) (rs : List Region) : (s.setRegions rs).status = s.status := rfl
@[simp] theorem State.setRegions_regions (s : State) (rs : List Region) : (s.setRegions rs).regions = rs := rfl
@[simp] theorem State.setRegions_nextHandle (s : State) (rs : List Region) : (s.setRegions rs).nextHandle = s.nextHandle := rfl

@[simp] theorem State.setRegions_readReg (s : State) (rs : List Region) (i : RegIdx) :
    (s.setRegions rs).readReg i = s.readReg i := rfl

@[simp] theorem State.raise_regs (s : State) (c : FatalCondition) : (s.raise c).regs = s.regs := rfl
@[simp] theorem State.raise_pc (s : State) (c : FatalCondition) : (s.raise c).pc = s.pc := rfl
@[simp] theorem State.raise_hi (s : State) (c : FatalCondition) : (s.raise c).hi = s.hi := rfl
@[simp] theorem State.raise_lo (s : State) (c : FatalCondition) : (s.raise c).lo = s.lo := rfl
@[simp] theorem State.raise_status (s : State) (c : FatalCondition) : (s.raise c).status = .fault c := rfl
@[simp] theorem State.raise_regions (s : State) (c : FatalCondition) : (s.raise c).regions = s.regions := rfl
@[simp] theorem State.raise_nextHandle (s : State) (c : FatalCondition) : (s.raise c).nextHandle = s.nextHandle := rfl

@[simp] theorem State.raise_readReg (s : State) (c : FatalCondition) (i : RegIdx) :
    (s.raise c).readReg i = s.readReg i := rfl

@[simp] theorem State.halt_regs (s : State) : (s.halt).regs = s.regs := rfl
@[simp] theorem State.halt_pc (s : State) : (s.halt).pc = s.pc := rfl
@[simp] theorem State.halt_hi (s : State) : (s.halt).hi = s.hi := rfl
@[simp] theorem State.halt_lo (s : State) : (s.halt).lo = s.lo := rfl
@[simp] theorem State.halt_status (s : State) : (s.halt).status = .halted := rfl
@[simp] theorem State.halt_regions (s : State) : (s.halt).regions = s.regions := rfl
@[simp] theorem State.halt_nextHandle (s : State) : (s.halt).nextHandle = s.nextHandle := rfl

@[simp] theorem State.halt_readReg (s : State) (i : RegIdx) :
    (s.halt).readReg i = s.readReg i := rfl

@[simp] theorem State.writeReg_pc (s : State) (i : RegIdx) (v : Word) : (s.writeReg i v).pc = s.pc := rfl
@[simp] theorem State.writeReg_hi (s : State) (i : RegIdx) (v : Word) : (s.writeReg i v).hi = s.hi := rfl
@[simp] theorem State.writeReg_lo (s : State) (i : RegIdx) (v : Word) : (s.writeReg i v).lo = s.lo := rfl
@[simp] theorem State.writeReg_status (s : State) (i : RegIdx) (v : Word) : (s.writeReg i v).status = s.status := rfl
@[simp] theorem State.writeReg_regions (s : State) (i : RegIdx) (v : Word) : (s.writeReg i v).regions = s.regions := rfl
@[simp] theorem State.writeReg_nextHandle (s : State) (i : RegIdx) (v : Word) : (s.writeReg i v).nextHandle = s.nextHandle := rfl

@[simp] theorem State.mapRegion_handle (s : State) (d : Device) (start last : Word) (remap : Bool) :
    (s.mapRegion d start last remap).1 = s.nextHandle := rfl
@[simp] theorem State.mapRegion_regions (s : State) (d : Device) (start last : Word) (remap : Bool) :
    (s.mapRegion d start last remap).2.regions =
      { handle := s.nextHandle, device := d, start := start, last := last, remap := remap } :: s.regions := rfl
@[simp] theorem State.mapRegion_nextHandle (s : State) (d : Device) (start last : Word) (remap : Bool) :
    (s.mapRegion d start last remap).2.nextHandle = s.nextHandle + 1 := rfl
@[simp] theorem State.mapRegion_regs (s : State) (d : Device) (start last : Word) (remap : Bool) :
    (s.mapRegion d start last remap).2.regs = s.regs := rfl
@[simp] theorem State.mapRegion_pc (s : State) (d : Device) (start last : Word) (remap : Bool) :
    (s.mapRegion d start last remap).2.pc = s.pc := rfl
@[simp] theorem State.mapRegion_hi (s : State) (d : Device) (start last : Word) (remap : Bool) :
    (s.mapRegion d start last remap).2.hi = s.hi := rfl
@[simp] theorem State.mapRegion_lo (s : State) (d : Device) (start last : Word) (remap : Bool) :
    (s.mapRegion d start last remap).2.lo = s.lo := rfl
@[simp] theorem State.mapRegion_status (s : State) (d : Device) (start last : Word) (remap : Bool) :
    (s.mapRegion d start last remap).2.status = s.status := rfl

@[simp] theorem State.readReg_zero (s : State) : s.readReg 0#5 = 0#32 := rfl

theorem State.writeReg_regs (s : State) (i : RegIdx) (v : Word) :
    (s.writeReg i v).regs = if i = 0#5 then s.regs else s.regs.set i.toNat v i.isLt := rfl

/-- A write of register 0 changes nothing (R22). -/
@[simp] theorem State.writeReg_zero (s : State) (v : Word) : s.writeReg 0#5 v = s := rfl

/-- A register reads back what was written to it. -/
@[simp] theorem State.readReg_writeReg_self (s : State) (i : RegIdx) (v : Word) (h : i ≠ 0#5) :
    (s.writeReg i v).readReg i = v := by
  simp [State.readReg, State.writeReg, h]

/-- A write leaves every other register alone. -/
@[simp] theorem State.readReg_writeReg_other (s : State) (i j : RegIdx) (v : Word) (h : j ≠ i) :
    (s.writeReg i v).readReg j = s.readReg j := by
  have hn : i.toNat ≠ j.toNat := fun e => h (BitVec.eq_of_toNat_eq e.symm)
  by_cases hi : i = 0#5
  · simp [hi]
  · simp [State.readReg, State.writeReg, hi, hn]

/-- No write reaches slot 0 (R22). -/
@[simp] theorem State.writeReg_slot_zero (s : State) (i : RegIdx) (v : Word) :
    (s.writeReg i v).regs[0] = s.regs[0] := by
  by_cases hi : i = 0#5
  · simp [hi]
  · have hn : i.toNat ≠ 0 := fun e => hi (BitVec.eq_of_toNat_eq (by simpa using e))
    simp [State.writeReg_regs, hi, hn]

end Sys2Proof.Machine
end

