-- ==== Sys2Proof/Laws/Ops.lean ====
section
/-! SUPPORT. What each shared operation can do, said once: the zero-destination test, MemRead, MemWrite, the
bodies the instructions share. -/

namespace Sys2Proof.Machine

theorem zeroTest_zero (i : Instr) (s : State) (body : Result) :
    zeroTest 0#5 i s body = .next (s.raise (.zeroRegisterWrite (encode i))) := rfl

@[simp] theorem zeroTest_pass (field : RegIdx) (i : Instr) (s : State) (body : Result) (h : field ≠ 0#5) :
    zeroTest field i s body = body := if_neg h

/-- All the zero-destination test can do. -/
theorem zeroTest_cases (field : RegIdx) (i : Instr) (s t : State) (body : Result)
    (h : zeroTest field i s body = .next t) :
    (field = 0#5 ∧ t = s.raise (.zeroRegisterWrite (encode i))) ∨ (field ≠ 0#5 ∧ body = .next t) := by
  by_cases hf : field = 0#5
  · subst hf
    exact .inl ⟨rfl, by cases h; rfl⟩
  · exact .inr ⟨hf, by rwa [zeroTest_pass _ _ _ _ hf] at h⟩

/-- All a register operation can do: the zero-destination stop, or one register written (R110). -/
theorem regOp_cases (f : Word → Word → Word) (i : Instr) (rs rt rd : RegIdx) (s t : State)
    (h : regOp f i rs rt rd s = .next t) :
    (rd = 0#5 ∧ t = s.raise (.zeroRegisterWrite (encode i))) ∨
    (rd ≠ 0#5 ∧ t = s.writeReg rd (f (s.readReg rs) (s.readReg rt))) := by
  rcases zeroTest_cases _ _ _ _ _ h with h | ⟨hd, h⟩
  · exact .inl h
  · exact .inr ⟨hd, by cases h; rfl⟩

/-- All an immediate shift can do (R130). -/
theorem shiftImm_cases (f : Word → Shamt → Word) (i : Instr) (rt rd : RegIdx) (shamt : Shamt) (s t : State)
    (h : shiftImm f i rt rd shamt s = .next t) :
    (rd = 0#5 ∧ t = s.raise (.zeroRegisterWrite (encode i))) ∨
    (rd ≠ 0#5 ∧ t = s.writeReg rd (f (s.readReg rt) shamt)) := by
  rcases zeroTest_cases _ _ _ _ _ h with h | ⟨hd, h⟩
  · exact .inl h
  · exact .inr ⟨hd, by cases h; rfl⟩

/-- All an immediate operation can do (R160). -/
theorem immOp_cases (f : Word → Word) (i : Instr) (rs rt : RegIdx) (s t : State)
    (h : immOp f i rs rt s = .next t) :
    (rt = 0#5 ∧ t = s.raise (.zeroRegisterWrite (encode i))) ∨
    (rt ≠ 0#5 ∧ t = s.writeReg rt (f (s.readReg rs))) := by
  rcases zeroTest_cases _ _ _ _ _ h with h | ⟨hd, h⟩
  · exact .inl h
  · exact .inr ⟨hd, by cases h; rfl⟩

/-! ### MemRead and MemWrite -/

/-- The state after a read: the region table as the access left it, and nothing else changed (R55). -/
theorem memRead_state (s : State) (n : Width) (a : Word) :
    (memRead s n a).2 = s.setRegions (access s.regions a (.read n)).2 := rfl

/-- The state after a write: the region table as the access left it, and nothing else changed (R56). -/
theorem memWrite_state (s : State) (n : Width) (a v : Word) :
    (memWrite s n a v).2 = s.setRegions (access s.regions a fun l => .write n l (splitBytes n v)).2 := rfl

/-- A read that resolves to a Memory Device and ends inside it: the bytes there, and no change at all. -/
theorem memRead_reaches (s : State) (n : Width) (a : Word) (r : Region) (d : MemoryDevice)
    (h : Reaches s n a r d) :
    memRead s n a = (.ok (assembleBytes (d.mem.readBytes (r.translate a).toNat n.bytes)), s) := by
  obtain ⟨front, back, e, -, ha⟩ := access_mapped s.regions a (.read n) r h.resolves
  have hin : d.inBounds n (r.translate a) := h.inside
  obtain ⟨hd, dev, st, la, re⟩ := r
  obtain rfl : dev = .memory d := h.memory
  simp only [Device.perform_memory_read, MemoryDevice.read, if_pos hin] at ha
  simp only [memRead, ha, passOn, State.setRegions, ← e]

/-- What a write that resolves to a Memory Device and ends inside it does: that device's bytes, in its place
in the table, and nothing else. -/
theorem memWrite_reaches (s : State) (n : Width) (a v : Word) (r : Region) (d : MemoryDevice)
    (h : Reaches s n a r d) :
    ∃ front back, s.regions = front ++ r :: back ∧ (∀ q ∈ front, q.covers a = false) ∧
      memWrite s n a v = (none, s.setRegions (front ++
        { r with device := .memory { d with
          mem := d.mem.writeBytes (r.translate a).toNat (splitBytes n v) } } :: back)) := by
  obtain ⟨front, back, e, hf, ha⟩ :=
    access_mapped s.regions a (fun l => .write n l (splitBytes n v)) r h.resolves
  have hin : d.inBounds n (r.translate a) := h.inside
  refine ⟨front, back, e, hf, ?_⟩
  obtain ⟨hd, dev, st, la, re⟩ := r
  obtain rfl : dev = .memory d := h.memory
  simp only [Device.perform, MemoryDevice.perform, MemoryDevice.write, if_pos hin] at ha
  simp only [memWrite, ha, passOn]

/-- All a load can do (R181): the zero-destination stop before any access; a condition of the access; or one
register written. The state but for register or status is as the access left it. -/
theorem load_cases (n : Width) (widen : Word → Word) (i : Instr) (rs rt : RegIdx) (imm : Imm) (s t : State)
    (h : load n widen i rs rt imm s = .next t) :
    (rt = 0#5 ∧ t = s.raise (.zeroRegisterWrite (encode i))) ∨
    (rt ≠ 0#5 ∧ ∃ c s', memRead s n (effectiveAddress s rs imm) = (.error c, s') ∧ t = s'.raise c) ∨
    (rt ≠ 0#5 ∧ ∃ v s', memRead s n (effectiveAddress s rs imm) = (.ok v, s') ∧ t = s'.writeReg rt (widen v)) := by
  rcases zeroTest_cases _ _ _ _ _ h with h | ⟨hd, h⟩
  · exact .inl h
  · rcases e : memRead s n (effectiveAddress s rs imm) with ⟨_ | v, s'⟩ <;> rw [e] at h <;> cases h
    · exact .inr (.inl ⟨hd, _, _, rfl, rfl⟩)
    · exact .inr (.inr ⟨hd, _, _, rfl, rfl⟩)

/-- All a store can do (R187): a condition of the access, or the access alone. -/
theorem store_cases (n : Width) (rs rt : RegIdx) (imm : Imm) (s t : State)
    (h : store n rs rt imm s = .next t) :
    (∃ c s', memWrite s n (effectiveAddress s rs imm) (s.readReg rt) = (some c, s') ∧ t = s'.raise c) ∨
    memWrite s n (effectiveAddress s rs imm) (s.readReg rt) = (none, t) := by
  unfold store at h
  rcases e : memWrite s n (effectiveAddress s rs imm) (s.readReg rt) with ⟨_ | c, s'⟩ <;> rw [e] at h <;> cases h
  · exact .inr rfl
  · exact .inl ⟨_, _, rfl, rfl⟩

/-! ### Branches -/

/-- A branch changes pc at most (R200). -/
theorem branch_cases (taken : Bool) (imm : Imm) (s : State) :
    branch taken imm s = s ∨ branch taken imm s = s.setPc (branchTarget s.pc imm) := by
  cases taken
  · exact .inl rfl
  · exact .inr rfl

@[simp] theorem branch_regs (taken : Bool) (imm : Imm) (s : State) : (branch taken imm s).regs = s.regs := by
  cases taken <;> rfl
@[simp] theorem branch_hi (taken : Bool) (imm : Imm) (s : State) : (branch taken imm s).hi = s.hi := by
  cases taken <;> rfl
@[simp] theorem branch_lo (taken : Bool) (imm : Imm) (s : State) : (branch taken imm s).lo = s.lo := by
  cases taken <;> rfl
@[simp] theorem branch_status (taken : Bool) (imm : Imm) (s : State) :
    (branch taken imm s).status = s.status := by
  cases taken <;> rfl
@[simp] theorem branch_regions (taken : Bool) (imm : Imm) (s : State) :
    (branch taken imm s).regions = s.regions := by
  cases taken <;> rfl
@[simp] theorem branch_nextHandle (taken : Bool) (imm : Imm) (s : State) :
    (branch taken imm s).nextHandle = s.nextHandle := by
  cases taken <;> rfl
@[simp] theorem branch_readReg (taken : Bool) (imm : Imm) (s : State) (i : RegIdx) :
    (branch taken imm s).readReg i = s.readReg i := by
  cases taken <;> rfl

@[simp] theorem link_pc (s : State) : (link s).pc = s.pc := rfl
@[simp] theorem link_hi (s : State) : (link s).hi = s.hi := rfl
@[simp] theorem link_lo (s : State) : (link s).lo = s.lo := rfl
@[simp] theorem link_status (s : State) : (link s).status = s.status := rfl
@[simp] theorem link_regions (s : State) : (link s).regions = s.regions := rfl
@[simp] theorem link_nextHandle (s : State) : (link s).nextHandle = s.nextHandle := rfl

/-- The link register after the link write (R201). -/
@[simp] theorem link_readReg (s : State) (i : RegIdx) :
    (link s).readReg i = if i = 31#5 then s.pc + 4#32 else s.readReg i := by
  split
  · subst_vars
    exact State.readReg_writeReg_self s 31#5 _ (by decide)
  · exact State.readReg_writeReg_other s 31#5 i _ ‹_›

end Sys2Proof.Machine
end

