-- ==== Sys2Proof/Laws/Step.lean ====
section
/-! SUPPORT. All that a fetch, a step, a run, a host operation and the placing of a word can do, said once. -/

namespace Sys2Proof.Machine

/-- A fetch changes the region table at most (R55, R284). -/
theorem fetch_state (s : State) :
    (fetch s).2 = s.setRegions (access s.regions s.pc (.read .word)).2 := rfl

/-- All a step can do (R284): stop on the fetch, stop on an illegal word, or run the instruction decoded. -/
theorem step_cases (s t : State) (h : step s = .next t) :
    s.status = .running ∧
    ((∃ c s', fetch s = (.error c, s') ∧ t = s'.raise c) ∨
     (∃ w s' e, fetch s = (.ok w, s') ∧ decodeWord w = .error e ∧
       t = (s'.setPc (s'.pc + 4#32)).raise (.illegalInstruction w)) ∨
     (∃ w s' i, fetch s = (.ok w, s') ∧ decodeWord w = .ok i ∧ exec i (s'.setPc (s'.pc + 4#32)) = .next t)) := by
  unfold step at h
  split at h
  · cases h
  · cases h
  · refine ⟨‹_›, ?_⟩
    split at h
    · cases h
      exact .inl ⟨_, _, ‹_›, rfl⟩
    · split at h
      · cases h
        exact .inr (.inl ⟨_, _, _, ‹_›, ‹_›, rfl⟩)
      · exact .inr (.inr ⟨_, _, _, ‹_›, ‹_›, h⟩)

/-- A run stays where the machine has stopped (R28, R261). -/
theorem run_stopped (k : Nat) (s : State) (h : s.status ≠ .running) : run k s = .next s := by
  cases k with
  | zero => rfl
  | succ k =>
    unfold run
    split
    · exact absurd ‹_› h
    · rfl

/-- A run of one step more, from a running machine that takes its step (R285). -/
theorem run_succ (k : Nat) (s t : State) (h : s.status = .running) (ht : step s = .next t) :
    run (k + 1) s = run k t := by
  simp only [run, h, ht]

/-- All an `unmap` can do (R50). -/
theorem State.unmapRegion_cases (s t : State) (handle : Nat) (h : s.unmapRegion handle = some t) :
    (∃ r ∈ s.regions, r.handle = handle) ∧
      t = { s with regions := s.regions.filter fun r => r.handle != handle } := by
  unfold State.unmapRegion at h
  split at h <;> rename_i hc
  · exact ⟨by simpa using hc, by cases h; rfl⟩
  · cases h

/-- All the placing of a word can do: a write into the Memory Device at pc, or a fresh device mapped there
(log 7). -/
theorem State.placeWord_cases (s : State) (w : Word) :
    (∃ r d, Reaches s .word s.pc r d ∧
      s.placeWord w = (memWrite (s.setStatus .running) .word s.pc w).2) ∨
    s.placeWord w = ((s.setStatus .running).mapRegion
      (.memory { size := 4, mem := Memory.writeBytes [] 0 (splitBytes .word w) }) s.pc (wordEnd s.pc) true).2 := by
  unfold State.placeWord
  cases h : resolve s.regions s.pc with
  | none => exact .inr rfl
  | some r =>
    obtain ⟨hd, dev, st, la, re⟩ := r
    cases dev with
    | other => exact .inr rfl
    | memory d =>
      simp only
      split
      · exact .inl ⟨_, d, ⟨h, rfl, ‹_›⟩, rfl⟩
      · exact .inr rfl

/-! ### The pairs that multiply and divide leave in hi and lo -/

/-- A product written to hi and lo: nothing else changes (R141, R142). -/
theorem setProduct_eq (s : State) (p : BitVec 64) :
    setProduct s p = { s with hi := p.extractLsb' 32 32, lo := p.extractLsb' 0 32 } := rfl

/-- All a signed division can do: stop in the overflowing case under the setting `refuse`, or give the
quotient rounded toward zero and the rest (R143). -/
theorem signedDivide_cases (mode : DivOverflow) (a b : Word) :
    ((a = 0x80000000#32 ∧ b = 0xFFFFFFFF#32 ∧ mode = .refuse) ∧ signedDivide mode a b = none) ∨
    signedDivide mode a b = some (BitVec.ofInt 32 (Int.tdiv a.toInt b.toInt),
      BitVec.ofInt 32 (a.toInt - Int.tdiv a.toInt b.toInt * b.toInt)) := by
  unfold signedDivide
  split
  · exact .inl ⟨‹_›, rfl⟩
  · exact .inr rfl

end Sys2Proof.Machine
end

