-- ==== Sys2Proof/Laws/Exec.lean ====
section
/-! SUPPORT. All an instruction can do, said once: every next state of `exec` is one of the effects below. -/

namespace Sys2Proof.Machine

/-- What `exec i s` can answer as its next state. -/
inductive Effect (i : Instr) (s : State) : State → Prop where
  /-- The zero-destination test failed (R92, R93). -/
  | zeroDestination : i.wellFormed = false → Effect i s (s.raise (.zeroRegisterWrite (encode i)))
  /-- A zero divisor, or a refused opcode (R256, R257). -/
  | stop (c : FatalCondition) : c = .divideByZero (encode i) ∨ c = .notImplemented (encode i) →
      i.wellFormed = true → Effect i s (s.raise c)
  /-- One register written. -/
  | register (q : RegIdx) (v : Word) : destination i = some q → q ≠ 0#5 → i.wellFormed = true →
      Effect i s (s.writeReg q v)
  /-- hi and lo written. -/
  | hiLo (hi lo : Word) : writesHiLo i = true → i.wellFormed = true → Effect i s ((s.setLo lo).setHi hi)
  /-- A branch or a jump; not taken, it writes the advanced pc back. -/
  | control (v : Word) : writesPc i = true → i.wellFormed = true → Effect i s (s.setPc v)
  /-- The same after the link write (R201). -/
  | linked (v : Word) : writesPc i = true → destination i = some 31#5 → i.wellFormed = true →
      Effect i s ((link s).setPc v)
  /-- The halt (R230). -/
  | halted (rs rt rd : RegIdx) (shamt : Shamt) : i = .syscall rs rt rd shamt → syscallCode rs rt shamt = 10#20 →
      Effect i s s.halt
  /-- SYSCALL with any other code. -/
  | nothing (rs rt rd : RegIdx) (shamt : Shamt) : i = .syscall rs rt rd shamt → Effect i s s
  /-- A load whose access raised a condition (R181). -/
  | loadStop (n : Width) (a : Word) (c : FatalCondition) (s' : State) : memRead s n a = (.error c, s') →
      i.wellFormed = true → Effect i s (s'.raise c)
  /-- A load (R181). -/
  | loaded (n : Width) (a v u : Word) (s' : State) (q : RegIdx) : memRead s n a = (.ok v, s') →
      destination i = some q → q ≠ 0#5 → i.wellFormed = true → Effect i s (s'.writeReg q u)
  /-- A store whose access raised a condition (R187). -/
  | storeStop (n : Width) (a v : Word) (c : FatalCondition) (s' : State) : memWrite s n a v = (some c, s') →
      writesMemory i = true → Effect i s (s'.raise c)
  /-- A store (R187). -/
  | stored (n : Width) (a v : Word) (s' : State) : memWrite s n a v = (none, s') → writesMemory i = true →
      Effect i s s'

/-- The zero-destination test before an effect. -/
theorem Effect.of_zeroTest (i : Instr) (s t : State) (field : RegIdx) (body : Result)
    (hi : i.testedField = some field) (h : zeroTest field i s body = .next t)
    (hb : field ≠ 0#5 → i.wellFormed = true → body = .next t → Effect i s t) : Effect i s t := by
  rcases zeroTest_cases _ _ _ _ _ h with ⟨rfl, rfl⟩ | ⟨hf, h⟩
  · exact .zeroDestination (by simp [Instr.wellFormed, hi])
  · exact hb hf (by simp [Instr.wellFormed, hi, hf]) h

theorem Effect.of_regOp (f : Word → Word → Word) (i : Instr) (rs rt rd : RegIdx) (s t : State)
    (hi : i.testedField = some rd) (hd : destination i = some rd) (h : regOp f i rs rt rd s = .next t) :
    Effect i s t :=
  .of_zeroTest _ _ _ _ _ hi h fun hf hw e => by cases e; exact .register _ _ hd hf hw

theorem Effect.of_shiftImm (f : Word → Shamt → Word) (i : Instr) (rt rd : RegIdx) (shamt : Shamt) (s t : State)
    (hi : i.testedField = some rd) (hd : destination i = some rd) (h : shiftImm f i rt rd shamt s = .next t) :
    Effect i s t :=
  .of_zeroTest _ _ _ _ _ hi h fun hf hw e => by cases e; exact .register _ _ hd hf hw

theorem Effect.of_immOp (f : Word → Word) (i : Instr) (rs rt : RegIdx) (s t : State)
    (hi : i.testedField = some rt) (hd : destination i = some rt) (h : immOp f i rs rt s = .next t) :
    Effect i s t :=
  .of_zeroTest _ _ _ _ _ hi h fun hf hw e => by cases e; exact .register _ _ hd hf hw

theorem Effect.of_load (n : Width) (widen : Word → Word) (i : Instr) (rs rt : RegIdx) (imm : Imm) (s t : State)
    (hi : i.testedField = some rt) (hd : destination i = some rt) (h : load n widen i rs rt imm s = .next t) :
    Effect i s t :=
  .of_zeroTest _ _ _ _ _ hi h fun hf hw e => by
    rcases em : memRead s n (effectiveAddress s rs imm) with ⟨_ | v, s'⟩ <;> rw [em] at e <;> cases e
    · exact .loadStop _ _ _ _ em hw
    · exact .loaded _ _ _ _ _ _ em hd hf hw

theorem Effect.of_store (n : Width) (i : Instr) (rs rt : RegIdx) (imm : Imm) (s t : State)
    (hi : writesMemory i = true) (h : store n rs rt imm s = .next t) : Effect i s t := by
  rcases store_cases _ _ _ _ _ _ h with ⟨c, s', e, rfl⟩ | e
  · exact .storeStop _ _ _ _ _ e hi
  · exact .stored _ _ _ _ e hi

theorem Effect.of_branch (taken : Bool) (imm : Imm) (i : Instr) (s t : State) (hi : writesPc i = true)
    (hw : i.wellFormed = true) (h : Host.Outcome.next (branch taken imm s) = (.next t : Result)) :
    Effect i s t := by
  cases h
  rcases branch_cases taken imm s with e | e <;> rw [e]
  · exact .control s.pc hi hw
  · exact .control _ hi hw

theorem Effect.of_linkBranch (taken : Bool) (imm : Imm) (i : Instr) (s t : State) (hi : writesPc i = true)
    (hd : destination i = some 31#5) (hw : i.wellFormed = true)
    (h : Host.Outcome.next (branch taken imm (link s)) = (.next t : Result)) : Effect i s t := by
  cases h
  rcases branch_cases taken imm (link s) with e | e <;> rw [e]
  · exact .linked s.pc hi hd hw
  · exact .linked _ hi hd hw

theorem Effect.of_refuseClass (i : Instr) (s t : State) (hw : i.wellFormed = true)
    (h : refuseClass i s = .next t) : Effect i s t := by
  cases h
  exact .stop _ (.inr rfl) hw

/-- Every next state of every instruction is one of the effects. -/
theorem exec_effect (i : Instr) (s t : State) (h : exec i s = .next t) : Effect i s t := by
  cases i
  case div rs rt rd shamt =>
    refine .of_zeroTest _ _ _ rd _ rfl h fun _ hw e => ?_
    split at e
    · cases e
      exact .stop _ (.inl rfl) hw
    · split at e
      · cases e
        exact .hiLo _ _ rfl hw
      · cases e
  case divu rs rt rd shamt =>
    refine .of_zeroTest _ _ _ rd _ rfl h fun _ hw e => ?_
    split at e <;> cases e
    · exact .stop _ (.inl rfl) hw
    · exact .hiLo _ _ rfl hw
  case mult rs rt rd shamt =>
    exact .of_zeroTest _ _ _ rd _ rfl h fun _ hw e => by cases e; exact .hiLo _ _ rfl hw
  case multu rs rt rd shamt =>
    exact .of_zeroTest _ _ _ rd _ rfl h fun _ hw e => by cases e; exact .hiLo _ _ rfl hw
  case mthi rs rt rd shamt =>
    exact .of_zeroTest _ _ _ rd _ rfl h fun _ hw e => by cases e; exact .hiLo (s.readReg rd) s.lo rfl hw
  case mtlo rs rt rd shamt =>
    exact .of_zeroTest _ _ _ rd _ rfl h fun _ hw e => by cases e; exact .hiLo s.hi (s.readReg rd) rfl hw
  case mfhi rs rt rd shamt =>
    exact .of_zeroTest _ _ _ rd _ rfl h fun hf hw e => by cases e; exact .register _ _ rfl hf hw
  case mflo rs rt rd shamt =>
    exact .of_zeroTest _ _ _ rd _ rfl h fun hf hw e => by cases e; exact .register _ _ rfl hf hw
  case jr rs rt rd shamt =>
    exact .of_zeroTest _ _ _ rd _ rfl h fun _ hw e => by cases e; exact .control _ rfl hw
  case jalr rs rt rd shamt =>
    exact .of_zeroTest _ _ _ rd _ rfl h fun _ hw e => by cases e; exact .control _ rfl hw
  case j target => cases h; exact .control _ rfl rfl
  case jal target => cases h; exact .linked _ rfl rfl rfl
  case syscall rs rt rd shamt =>
    cases h
    split
    · exact .halted _ _ _ _ rfl ‹_›
    · exact .nothing _ _ _ _ rfl
  all_goals simp only [exec, execAdd, execAddu, execSub, execSubu, execAnd, execOr, execXor, execNor,
    execSlt, execSltu, execSll, execSrl, execSra, execSllv, execSrlv, execSrav, execBltz, execBgez,
    execBltzal, execBgezal, execBeq, execBne, execBlez, execBgtz, execAddi, execAddiu, execSlti,
    execSltiu, execAndi, execOri, execXori, execLui, execLb, execLhw, execLw, execLbu, execLhwu, execSb,
    execShw, execSw, execLwl, execLwr, execSwl, execSwr, execLwc0, execLwc1, execLwc2, execLwc3,
    execSwc0, execSwc1, execSwc2, execSwc3, execCop0, execCop1, execCop2, execCop3] at h
  all_goals first
    | exact .of_regOp _ _ _ _ _ _ _ rfl rfl h
    | exact .of_shiftImm _ _ _ _ _ _ _ rfl rfl h
    | exact .of_immOp _ _ _ _ _ _ rfl rfl h
    | exact .of_load _ _ _ _ _ _ _ _ rfl rfl h
    | exact .of_store _ _ _ _ _ _ _ rfl h
    | exact .of_branch _ _ _ _ _ rfl rfl h
    | exact .of_linkBranch _ _ _ _ _ rfl rfl rfl h
    | exact .of_refuseClass _ _ _ rfl h

end Sys2Proof.Machine
end

