-- ==== Sys2Proof/Laws/PerInstr.lean ====
section
/-! SUPPORT. A law of every instruction as syntax, one lemma per constructor: its word carries the fixed bits
that spec/opcode_table.json gives its row (the row's `mask` and `match`). -/

namespace Sys2Proof.Laws

/-- The row's `mask`: which bits of the word are fixed. -/
def tableMask : Instr → Word
  | .add _ _ _ _ => 0xFC00003F#32
  | .addu _ _ _ _ => 0xFC00003F#32
  | .sub _ _ _ _ => 0xFC00003F#32
  | .subu _ _ _ _ => 0xFC00003F#32
  | .and _ _ _ _ => 0xFC00003F#32
  | .or _ _ _ _ => 0xFC00003F#32
  | .xor _ _ _ _ => 0xFC00003F#32
  | .nor _ _ _ _ => 0xFC00003F#32
  | .slt _ _ _ _ => 0xFC00003F#32
  | .sltu _ _ _ _ => 0xFC00003F#32
  | .sll _ _ _ _ => 0xFC00003F#32
  | .srl _ _ _ _ => 0xFC00003F#32
  | .sra _ _ _ _ => 0xFC00003F#32
  | .sllv _ _ _ _ => 0xFC00003F#32
  | .srlv _ _ _ _ => 0xFC00003F#32
  | .srav _ _ _ _ => 0xFC00003F#32
  | .mult _ _ _ _ => 0xFC00003F#32
  | .multu _ _ _ _ => 0xFC00003F#32
  | .div _ _ _ _ => 0xFC00003F#32
  | .divu _ _ _ _ => 0xFC00003F#32
  | .mfhi _ _ _ _ => 0xFC00003F#32
  | .mflo _ _ _ _ => 0xFC00003F#32
  | .mthi _ _ _ _ => 0xFC00003F#32
  | .mtlo _ _ _ _ => 0xFC00003F#32
  | .jr _ _ _ _ => 0xFC00003F#32
  | .jalr _ _ _ _ => 0xFC00003F#32
  | .syscall _ _ _ _ => 0xFC00003F#32
  | .bltz _ _ => 0xFC1F0000#32
  | .bgez _ _ => 0xFC1F0000#32
  | .bltzal _ _ => 0xFC1F0000#32
  | .bgezal _ _ => 0xFC1F0000#32
  | .beq _ _ _ => 0xFC000000#32
  | .bne _ _ _ => 0xFC000000#32
  | .blez _ _ _ => 0xFC000000#32
  | .bgtz _ _ _ => 0xFC000000#32
  | .addi _ _ _ => 0xFC000000#32
  | .addiu _ _ _ => 0xFC000000#32
  | .slti _ _ _ => 0xFC000000#32
  | .sltiu _ _ _ => 0xFC000000#32
  | .andi _ _ _ => 0xFC000000#32
  | .ori _ _ _ => 0xFC000000#32
  | .xori _ _ _ => 0xFC000000#32
  | .lui _ _ _ => 0xFC000000#32
  | .lb _ _ _ => 0xFC000000#32
  | .lhw _ _ _ => 0xFC000000#32
  | .lw _ _ _ => 0xFC000000#32
  | .lbu _ _ _ => 0xFC000000#32
  | .lhwu _ _ _ => 0xFC000000#32
  | .sb _ _ _ => 0xFC000000#32
  | .shw _ _ _ => 0xFC000000#32
  | .sw _ _ _ => 0xFC000000#32
  | .j _ => 0xFC000000#32
  | .jal _ => 0xFC000000#32
  | .lwl _ => 0xFC000000#32
  | .lwr _ => 0xFC000000#32
  | .swl _ => 0xFC000000#32
  | .swr _ => 0xFC000000#32
  | .lwc0 _ => 0xFC000000#32
  | .lwc1 _ => 0xFC000000#32
  | .lwc2 _ => 0xFC000000#32
  | .lwc3 _ => 0xFC000000#32
  | .swc0 _ => 0xFC000000#32
  | .swc1 _ => 0xFC000000#32
  | .swc2 _ => 0xFC000000#32
  | .swc3 _ => 0xFC000000#32
  | .cop0 _ => 0xFC000000#32
  | .cop1 _ => 0xFC000000#32
  | .cop2 _ => 0xFC000000#32
  | .cop3 _ => 0xFC000000#32

/-- The row's `match`: the values of the fixed bits. -/
def tableMatch : Instr → Word
  | .add _ _ _ _ => 0x00000020#32
  | .addu _ _ _ _ => 0x00000021#32
  | .sub _ _ _ _ => 0x00000022#32
  | .subu _ _ _ _ => 0x00000023#32
  | .and _ _ _ _ => 0x00000024#32
  | .or _ _ _ _ => 0x00000025#32
  | .xor _ _ _ _ => 0x00000026#32
  | .nor _ _ _ _ => 0x00000027#32
  | .slt _ _ _ _ => 0x0000002A#32
  | .sltu _ _ _ _ => 0x0000002B#32
  | .sll _ _ _ _ => 0x00000000#32
  | .srl _ _ _ _ => 0x00000002#32
  | .sra _ _ _ _ => 0x00000003#32
  | .sllv _ _ _ _ => 0x00000004#32
  | .srlv _ _ _ _ => 0x00000006#32
  | .srav _ _ _ _ => 0x00000007#32
  | .mult _ _ _ _ => 0x00000018#32
  | .multu _ _ _ _ => 0x00000019#32
  | .div _ _ _ _ => 0x0000001A#32
  | .divu _ _ _ _ => 0x0000001B#32
  | .mfhi _ _ _ _ => 0x00000010#32
  | .mflo _ _ _ _ => 0x00000012#32
  | .mthi _ _ _ _ => 0x00000011#32
  | .mtlo _ _ _ _ => 0x00000013#32
  | .jr _ _ _ _ => 0x00000008#32
  | .jalr _ _ _ _ => 0x00000009#32
  | .syscall _ _ _ _ => 0x0000000C#32
  | .bltz _ _ => 0x04000000#32
  | .bgez _ _ => 0x04010000#32
  | .bltzal _ _ => 0x04100000#32
  | .bgezal _ _ => 0x04110000#32
  | .beq _ _ _ => 0x10000000#32
  | .bne _ _ _ => 0x14000000#32
  | .blez _ _ _ => 0x18000000#32
  | .bgtz _ _ _ => 0x1C000000#32
  | .addi _ _ _ => 0x20000000#32
  | .addiu _ _ _ => 0x24000000#32
  | .slti _ _ _ => 0x28000000#32
  | .sltiu _ _ _ => 0x2C000000#32
  | .andi _ _ _ => 0x30000000#32
  | .ori _ _ _ => 0x34000000#32
  | .xori _ _ _ => 0x38000000#32
  | .lui _ _ _ => 0x3C000000#32
  | .lb _ _ _ => 0x80000000#32
  | .lhw _ _ _ => 0x84000000#32
  | .lw _ _ _ => 0x8C000000#32
  | .lbu _ _ _ => 0x90000000#32
  | .lhwu _ _ _ => 0x94000000#32
  | .sb _ _ _ => 0xA0000000#32
  | .shw _ _ _ => 0xA4000000#32
  | .sw _ _ _ => 0xAC000000#32
  | .j _ => 0x08000000#32
  | .jal _ => 0x0C000000#32
  | .lwl _ => 0x88000000#32
  | .lwr _ => 0x98000000#32
  | .swl _ => 0xA8000000#32
  | .swr _ => 0xB8000000#32
  | .lwc0 _ => 0xC0000000#32
  | .lwc1 _ => 0xC4000000#32
  | .lwc2 _ => 0xC8000000#32
  | .lwc3 _ => 0xCC000000#32
  | .swc0 _ => 0xE0000000#32
  | .swc1 _ => 0xE4000000#32
  | .swc2 _ => 0xE8000000#32
  | .swc3 _ => 0xEC000000#32
  | .cop0 _ => 0x40000000#32
  | .cop1 _ => 0x44000000#32
  | .cop2 _ => 0x48000000#32
  | .cop3 _ => 0x4C000000#32

/-- The fixed bits of the instruction's word are those of its row of the opcode table. -/
def OpcodeBits.Statement (i : Instr) : Prop := encode i &&& tableMask i = tableMatch i

theorem OpcodeBits.rFormat (f : BitVec 6) (rs rt rd : RegIdx) (sh : Shamt) :
    encodeR f rs rt rd sh &&& 0xFC00003F#32 = f.setWidth 32 := by
  apply BitVec.eq_of_getLsbD_eq
  intro k hk
  simp only [BitVec.getLsbD_and, encodeR_getLsbD]
  interval_cases k <;> simp

theorem OpcodeBits.regimm (op : BitVec 6) (rs rt : BitVec 5) (imm : Imm) :
    encodeI op rs rt imm &&& 0xFC1F0000#32 = encodeI op 0#5 rt 0#16 := by
  apply BitVec.eq_of_getLsbD_eq
  intro k hk
  simp only [BitVec.getLsbD_and, encodeI_getLsbD]
  interval_cases k <;> simp

theorem OpcodeBits.iFormat (op : BitVec 6) (rs rt : BitVec 5) (imm : Imm) :
    encodeI op rs rt imm &&& 0xFC000000#32 = encodeI op 0#5 0#5 0#16 := by
  apply BitVec.eq_of_getLsbD_eq
  intro k hk
  simp only [BitVec.getLsbD_and, encodeI_getLsbD]
  interval_cases k <;> simp

theorem OpcodeBits.jFormat (op : BitVec 6) (target : Target) :
    encodeJ op target &&& 0xFC000000#32 = encodeJ op 0#26 := by
  apply BitVec.eq_of_getLsbD_eq
  intro k hk
  simp only [BitVec.getLsbD_and, encodeJ_getLsbD]
  interval_cases k <;> simp

theorem OpcodeBits.add (rs rt rd : RegIdx) (shamt : Shamt) : OpcodeBits.Statement (.add rs rt rd shamt) :=
  OpcodeBits.rFormat _ _ _ _ _
theorem OpcodeBits.addu (rs rt rd : RegIdx) (shamt : Shamt) : OpcodeBits.Statement (.addu rs rt rd shamt) :=
  OpcodeBits.rFormat _ _ _ _ _
theorem OpcodeBits.sub (rs rt rd : RegIdx) (shamt : Shamt) : OpcodeBits.Statement (.sub rs rt rd shamt) :=
  OpcodeBits.rFormat _ _ _ _ _
theorem OpcodeBits.subu (rs rt rd : RegIdx) (shamt : Shamt) : OpcodeBits.Statement (.subu rs rt rd shamt) :=
  OpcodeBits.rFormat _ _ _ _ _
theorem OpcodeBits.and (rs rt rd : RegIdx) (shamt : Shamt) : OpcodeBits.Statement (.and rs rt rd shamt) :=
  OpcodeBits.rFormat _ _ _ _ _
theorem OpcodeBits.or (rs rt rd : RegIdx) (shamt : Shamt) : OpcodeBits.Statement (.or rs rt rd shamt) :=
  OpcodeBits.rFormat _ _ _ _ _
theorem OpcodeBits.xor (rs rt rd : RegIdx) (shamt : Shamt) : OpcodeBits.Statement (.xor rs rt rd shamt) :=
  OpcodeBits.rFormat _ _ _ _ _
theorem OpcodeBits.nor (rs rt rd : RegIdx) (shamt : Shamt) : OpcodeBits.Statement (.nor rs rt rd shamt) :=
  OpcodeBits.rFormat _ _ _ _ _
theorem OpcodeBits.slt (rs rt rd : RegIdx) (shamt : Shamt) : OpcodeBits.Statement (.slt rs rt rd shamt) :=
  OpcodeBits.rFormat _ _ _ _ _
theorem OpcodeBits.sltu (rs rt rd : RegIdx) (shamt : Shamt) : OpcodeBits.Statement (.sltu rs rt rd shamt) :=
  OpcodeBits.rFormat _ _ _ _ _
theorem OpcodeBits.sll (rs rt rd : RegIdx) (shamt : Shamt) : OpcodeBits.Statement (.sll rs rt rd shamt) :=
  OpcodeBits.rFormat _ _ _ _ _
theorem OpcodeBits.srl (rs rt rd : RegIdx) (shamt : Shamt) : OpcodeBits.Statement (.srl rs rt rd shamt) :=
  OpcodeBits.rFormat _ _ _ _ _
theorem OpcodeBits.sra (rs rt rd : RegIdx) (shamt : Shamt) : OpcodeBits.Statement (.sra rs rt rd shamt) :=
  OpcodeBits.rFormat _ _ _ _ _
theorem OpcodeBits.sllv (rs rt rd : RegIdx) (shamt : Shamt) : OpcodeBits.Statement (.sllv rs rt rd shamt) :=
  OpcodeBits.rFormat _ _ _ _ _
theorem OpcodeBits.srlv (rs rt rd : RegIdx) (shamt : Shamt) : OpcodeBits.Statement (.srlv rs rt rd shamt) :=
  OpcodeBits.rFormat _ _ _ _ _
theorem OpcodeBits.srav (rs rt rd : RegIdx) (shamt : Shamt) : OpcodeBits.Statement (.srav rs rt rd shamt) :=
  OpcodeBits.rFormat _ _ _ _ _
theorem OpcodeBits.mult (rs rt rd : RegIdx) (shamt : Shamt) : OpcodeBits.Statement (.mult rs rt rd shamt) :=
  OpcodeBits.rFormat _ _ _ _ _
theorem OpcodeBits.multu (rs rt rd : RegIdx) (shamt : Shamt) : OpcodeBits.Statement (.multu rs rt rd shamt) :=
  OpcodeBits.rFormat _ _ _ _ _
theorem OpcodeBits.div (rs rt rd : RegIdx) (shamt : Shamt) : OpcodeBits.Statement (.div rs rt rd shamt) :=
  OpcodeBits.rFormat _ _ _ _ _
theorem OpcodeBits.divu (rs rt rd : RegIdx) (shamt : Shamt) : OpcodeBits.Statement (.divu rs rt rd shamt) :=
  OpcodeBits.rFormat _ _ _ _ _
theorem OpcodeBits.mfhi (rs rt rd : RegIdx) (shamt : Shamt) : OpcodeBits.Statement (.mfhi rs rt rd shamt) :=
  OpcodeBits.rFormat _ _ _ _ _
theorem OpcodeBits.mflo (rs rt rd : RegIdx) (shamt : Shamt) : OpcodeBits.Statement (.mflo rs rt rd shamt) :=
  OpcodeBits.rFormat _ _ _ _ _
theorem OpcodeBits.mthi (rs rt rd : RegIdx) (shamt : Shamt) : OpcodeBits.Statement (.mthi rs rt rd shamt) :=
  OpcodeBits.rFormat _ _ _ _ _
theorem OpcodeBits.mtlo (rs rt rd : RegIdx) (shamt : Shamt) : OpcodeBits.Statement (.mtlo rs rt rd shamt) :=
  OpcodeBits.rFormat _ _ _ _ _
theorem OpcodeBits.jr (rs rt rd : RegIdx) (shamt : Shamt) : OpcodeBits.Statement (.jr rs rt rd shamt) :=
  OpcodeBits.rFormat _ _ _ _ _
theorem OpcodeBits.jalr (rs rt rd : RegIdx) (shamt : Shamt) : OpcodeBits.Statement (.jalr rs rt rd shamt) :=
  OpcodeBits.rFormat _ _ _ _ _
theorem OpcodeBits.syscall (rs rt rd : RegIdx) (shamt : Shamt) : OpcodeBits.Statement (.syscall rs rt rd shamt) :=
  OpcodeBits.rFormat _ _ _ _ _
theorem OpcodeBits.bltz (rs : RegIdx) (imm : Imm) : OpcodeBits.Statement (.bltz rs imm) :=
  OpcodeBits.regimm _ _ _ _
theorem OpcodeBits.bgez (rs : RegIdx) (imm : Imm) : OpcodeBits.Statement (.bgez rs imm) :=
  OpcodeBits.regimm _ _ _ _
theorem OpcodeBits.bltzal (rs : RegIdx) (imm : Imm) : OpcodeBits.Statement (.bltzal rs imm) :=
  OpcodeBits.regimm _ _ _ _
theorem OpcodeBits.bgezal (rs : RegIdx) (imm : Imm) : OpcodeBits.Statement (.bgezal rs imm) :=
  OpcodeBits.regimm _ _ _ _
theorem OpcodeBits.beq (rs rt : RegIdx) (imm : Imm) : OpcodeBits.Statement (.beq rs rt imm) :=
  OpcodeBits.iFormat _ _ _ _
theorem OpcodeBits.bne (rs rt : RegIdx) (imm : Imm) : OpcodeBits.Statement (.bne rs rt imm) :=
  OpcodeBits.iFormat _ _ _ _
theorem OpcodeBits.blez (rs rt : RegIdx) (imm : Imm) : OpcodeBits.Statement (.blez rs rt imm) :=
  OpcodeBits.iFormat _ _ _ _
theorem OpcodeBits.bgtz (rs rt : RegIdx) (imm : Imm) : OpcodeBits.Statement (.bgtz rs rt imm) :=
  OpcodeBits.iFormat _ _ _ _
theorem OpcodeBits.addi (rs rt : RegIdx) (imm : Imm) : OpcodeBits.Statement (.addi rs rt imm) :=
  OpcodeBits.iFormat _ _ _ _
theorem OpcodeBits.addiu (rs rt : RegIdx) (imm : Imm) : OpcodeBits.Statement (.addiu rs rt imm) :=
  OpcodeBits.iFormat _ _ _ _
theorem OpcodeBits.slti (rs rt : RegIdx) (imm : Imm) : OpcodeBits.Statement (.slti rs rt imm) :=
  OpcodeBits.iFormat _ _ _ _
theorem OpcodeBits.sltiu (rs rt : RegIdx) (imm : Imm) : OpcodeBits.Statement (.sltiu rs rt imm) :=
  OpcodeBits.iFormat _ _ _ _
theorem OpcodeBits.andi (rs rt : RegIdx) (imm : Imm) : OpcodeBits.Statement (.andi rs rt imm) :=
  OpcodeBits.iFormat _ _ _ _
theorem OpcodeBits.ori (rs rt : RegIdx) (imm : Imm) : OpcodeBits.Statement (.ori rs rt imm) :=
  OpcodeBits.iFormat _ _ _ _
theorem OpcodeBits.xori (rs rt : RegIdx) (imm : Imm) : OpcodeBits.Statement (.xori rs rt imm) :=
  OpcodeBits.iFormat _ _ _ _
theorem OpcodeBits.lui (rs rt : RegIdx) (imm : Imm) : OpcodeBits.Statement (.lui rs rt imm) :=
  OpcodeBits.iFormat _ _ _ _
theorem OpcodeBits.lb (rs rt : RegIdx) (imm : Imm) : OpcodeBits.Statement (.lb rs rt imm) :=
  OpcodeBits.iFormat _ _ _ _
theorem OpcodeBits.lhw (rs rt : RegIdx) (imm : Imm) : OpcodeBits.Statement (.lhw rs rt imm) :=
  OpcodeBits.iFormat _ _ _ _
theorem OpcodeBits.lw (rs rt : RegIdx) (imm : Imm) : OpcodeBits.Statement (.lw rs rt imm) :=
  OpcodeBits.iFormat _ _ _ _
theorem OpcodeBits.lbu (rs rt : RegIdx) (imm : Imm) : OpcodeBits.Statement (.lbu rs rt imm) :=
  OpcodeBits.iFormat _ _ _ _
theorem OpcodeBits.lhwu (rs rt : RegIdx) (imm : Imm) : OpcodeBits.Statement (.lhwu rs rt imm) :=
  OpcodeBits.iFormat _ _ _ _
theorem OpcodeBits.sb (rs rt : RegIdx) (imm : Imm) : OpcodeBits.Statement (.sb rs rt imm) :=
  OpcodeBits.iFormat _ _ _ _
theorem OpcodeBits.shw (rs rt : RegIdx) (imm : Imm) : OpcodeBits.Statement (.shw rs rt imm) :=
  OpcodeBits.iFormat _ _ _ _
theorem OpcodeBits.sw (rs rt : RegIdx) (imm : Imm) : OpcodeBits.Statement (.sw rs rt imm) :=
  OpcodeBits.iFormat _ _ _ _
theorem OpcodeBits.j (target : Target) : OpcodeBits.Statement (.j target) :=
  OpcodeBits.jFormat _ _
theorem OpcodeBits.jal (target : Target) : OpcodeBits.Statement (.jal target) :=
  OpcodeBits.jFormat _ _
theorem OpcodeBits.lwl (bits : Target) : OpcodeBits.Statement (.lwl bits) :=
  OpcodeBits.jFormat _ _
theorem OpcodeBits.lwr (bits : Target) : OpcodeBits.Statement (.lwr bits) :=
  OpcodeBits.jFormat _ _
theorem OpcodeBits.swl (bits : Target) : OpcodeBits.Statement (.swl bits) :=
  OpcodeBits.jFormat _ _
theorem OpcodeBits.swr (bits : Target) : OpcodeBits.Statement (.swr bits) :=
  OpcodeBits.jFormat _ _
theorem OpcodeBits.lwc0 (bits : Target) : OpcodeBits.Statement (.lwc0 bits) :=
  OpcodeBits.jFormat _ _
theorem OpcodeBits.lwc1 (bits : Target) : OpcodeBits.Statement (.lwc1 bits) :=
  OpcodeBits.jFormat _ _
theorem OpcodeBits.lwc2 (bits : Target) : OpcodeBits.Statement (.lwc2 bits) :=
  OpcodeBits.jFormat _ _
theorem OpcodeBits.lwc3 (bits : Target) : OpcodeBits.Statement (.lwc3 bits) :=
  OpcodeBits.jFormat _ _
theorem OpcodeBits.swc0 (bits : Target) : OpcodeBits.Statement (.swc0 bits) :=
  OpcodeBits.jFormat _ _
theorem OpcodeBits.swc1 (bits : Target) : OpcodeBits.Statement (.swc1 bits) :=
  OpcodeBits.jFormat _ _
theorem OpcodeBits.swc2 (bits : Target) : OpcodeBits.Statement (.swc2 bits) :=
  OpcodeBits.jFormat _ _
theorem OpcodeBits.swc3 (bits : Target) : OpcodeBits.Statement (.swc3 bits) :=
  OpcodeBits.jFormat _ _
theorem OpcodeBits.cop0 (bits : Target) : OpcodeBits.Statement (.cop0 bits) :=
  OpcodeBits.jFormat _ _
theorem OpcodeBits.cop1 (bits : Target) : OpcodeBits.Statement (.cop1 bits) :=
  OpcodeBits.jFormat _ _
theorem OpcodeBits.cop2 (bits : Target) : OpcodeBits.Statement (.cop2 bits) :=
  OpcodeBits.jFormat _ _
theorem OpcodeBits.cop3 (bits : Target) : OpcodeBits.Statement (.cop3 bits) :=
  OpcodeBits.jFormat _ _

end Sys2Proof.Laws
end

