-- ==== Sys2Proof/Tests/Slice0.lean ====
section
/-! SUPPORT. Tests on one step each, and a witness for every statement that has hypotheses. Expected values are
the spec's (30_encoding.md, 95_test_vectors.md), never the model's own answers. -/

namespace Sys2Proof.Tests

open Sys2Proof Sys2Proof.Machine

/-! ### WellFormed refuses an ill-formed term, one for each check -/

/-- R92: rd = 0 in an R-format instruction. -/
theorem test_wellFormed_refuses_rd_zero : (Instr.add 1 2 0 0).wellFormed = false := by decide

/-- R93: rt = 0 in an I-format instruction that writes rt. -/
theorem test_wellFormed_refuses_rt_zero : (Instr.lw 1 0 0).wellFormed = false := by decide

/-- SYSCALL and the stores are not tested (R92, R93). -/
theorem test_wellFormed_exempt : (Instr.syscall 1 2 0 0).wellFormed = true ∧ (Instr.sw 1 0 0).wellFormed = true := by
  decide

/-! ### Every constructor's decoding, its word written out from 30_encoding.md R81 to R89 -/

/-- The instructions of 40_alu_register.md. -/
theorem test_decode_registers :
    decodeWord 0b000000_10101_01010_11001_00111_100000#32 = .ok (.add 21 10 25 7) ∧
    decodeWord 0b000000_10101_01010_11001_00111_100001#32 = .ok (.addu 21 10 25 7) ∧
    decodeWord 0b000000_10101_01010_11001_00111_100010#32 = .ok (.sub 21 10 25 7) ∧
    decodeWord 0b000000_10101_01010_11001_00111_100011#32 = .ok (.subu 21 10 25 7) ∧
    decodeWord 0b000000_10101_01010_11001_00111_100100#32 = .ok (.and 21 10 25 7) ∧
    decodeWord 0b000000_10101_01010_11001_00111_100101#32 = .ok (.or 21 10 25 7) ∧
    decodeWord 0b000000_10101_01010_11001_00111_100110#32 = .ok (.xor 21 10 25 7) ∧
    decodeWord 0b000000_10101_01010_11001_00111_100111#32 = .ok (.nor 21 10 25 7) ∧
    decodeWord 0b000000_10101_01010_11001_00111_101010#32 = .ok (.slt 21 10 25 7) ∧
    decodeWord 0b000000_10101_01010_11001_00111_101011#32 = .ok (.sltu 21 10 25 7) := by
  decide

/-- The instructions of 41_shift.md. -/
theorem test_decode_shifts :
    decodeWord 0b000000_10101_01010_11001_00111_000000#32 = .ok (.sll 21 10 25 7) ∧
    decodeWord 0b000000_10101_01010_11001_00111_000010#32 = .ok (.srl 21 10 25 7) ∧
    decodeWord 0b000000_10101_01010_11001_00111_000011#32 = .ok (.sra 21 10 25 7) ∧
    decodeWord 0b000000_10101_01010_11001_00111_000100#32 = .ok (.sllv 21 10 25 7) ∧
    decodeWord 0b000000_10101_01010_11001_00111_000110#32 = .ok (.srlv 21 10 25 7) ∧
    decodeWord 0b000000_10101_01010_11001_00111_000111#32 = .ok (.srav 21 10 25 7) := by
  decide

/-- The instructions of 42_muldiv_hilo.md. -/
theorem test_decode_muldiv :
    decodeWord 0b000000_10101_01010_11001_00111_010000#32 = .ok (.mfhi 21 10 25 7) ∧
    decodeWord 0b000000_10101_01010_11001_00111_010001#32 = .ok (.mthi 21 10 25 7) ∧
    decodeWord 0b000000_10101_01010_11001_00111_010010#32 = .ok (.mflo 21 10 25 7) ∧
    decodeWord 0b000000_10101_01010_11001_00111_010011#32 = .ok (.mtlo 21 10 25 7) ∧
    decodeWord 0b000000_10101_01010_11001_00111_011000#32 = .ok (.mult 21 10 25 7) ∧
    decodeWord 0b000000_10101_01010_11001_00111_011001#32 = .ok (.multu 21 10 25 7) ∧
    decodeWord 0b000000_10101_01010_11001_00111_011010#32 = .ok (.div 21 10 25 7) ∧
    decodeWord 0b000000_10101_01010_11001_00111_011011#32 = .ok (.divu 21 10 25 7) := by
  decide

/-- The instructions of 43_alu_immediate.md. -/
theorem test_decode_immediates :
    decodeWord 0b001000_10101_01010_1010010111000011#32 = .ok (.addi 21 10 0xA5C3) ∧
    decodeWord 0b001001_10101_01010_1010010111000011#32 = .ok (.addiu 21 10 0xA5C3) ∧
    decodeWord 0b001010_10101_01010_1010010111000011#32 = .ok (.slti 21 10 0xA5C3) ∧
    decodeWord 0b001011_10101_01010_1010010111000011#32 = .ok (.sltiu 21 10 0xA5C3) ∧
    decodeWord 0b001100_10101_01010_1010010111000011#32 = .ok (.andi 21 10 0xA5C3) ∧
    decodeWord 0b001101_10101_01010_1010010111000011#32 = .ok (.ori 21 10 0xA5C3) ∧
    decodeWord 0b001110_10101_01010_1010010111000011#32 = .ok (.xori 21 10 0xA5C3) ∧
    decodeWord 0b001111_10101_01010_1010010111000011#32 = .ok (.lui 21 10 0xA5C3) := by
  decide

/-- The instructions of 44_load_store.md. -/
theorem test_decode_load_store :
    decodeWord 0b100000_10101_01010_1010010111000011#32 = .ok (.lb 21 10 0xA5C3) ∧
    decodeWord 0b100001_10101_01010_1010010111000011#32 = .ok (.lhw 21 10 0xA5C3) ∧
    decodeWord 0b100011_10101_01010_1010010111000011#32 = .ok (.lw 21 10 0xA5C3) ∧
    decodeWord 0b100100_10101_01010_1010010111000011#32 = .ok (.lbu 21 10 0xA5C3) ∧
    decodeWord 0b100101_10101_01010_1010010111000011#32 = .ok (.lhwu 21 10 0xA5C3) ∧
    decodeWord 0b101000_10101_01010_1010010111000011#32 = .ok (.sb 21 10 0xA5C3) ∧
    decodeWord 0b101001_10101_01010_1010010111000011#32 = .ok (.shw 21 10 0xA5C3) ∧
    decodeWord 0b101011_10101_01010_1010010111000011#32 = .ok (.sw 21 10 0xA5C3) := by
  decide

/-- The instructions of 45_branch_jump.md. -/
theorem test_decode_branch_jump :
    decodeWord 0b000000_10101_01010_11001_00111_001000#32 = .ok (.jr 21 10 25 7) ∧
    decodeWord 0b000000_10101_01010_11001_00111_001001#32 = .ok (.jalr 21 10 25 7) ∧
    decodeWord 0b000001_10101_00000_1010010111000011#32 = .ok (.bltz 21 0xA5C3) ∧
    decodeWord 0b000001_10101_00001_1010010111000011#32 = .ok (.bgez 21 0xA5C3) ∧
    decodeWord 0b000001_10101_10000_1010010111000011#32 = .ok (.bltzal 21 0xA5C3) ∧
    decodeWord 0b000001_10101_10001_1010010111000011#32 = .ok (.bgezal 21 0xA5C3) ∧
    decodeWord 0b000010_10101001011100001111100001#32 = .ok (.j 0x2A5C3E1) ∧
    decodeWord 0b000011_10101001011100001111100001#32 = .ok (.jal 0x2A5C3E1) ∧
    decodeWord 0b000100_10101_01010_1010010111000011#32 = .ok (.beq 21 10 0xA5C3) ∧
    decodeWord 0b000101_10101_01010_1010010111000011#32 = .ok (.bne 21 10 0xA5C3) ∧
    decodeWord 0b000110_10101_01010_1010010111000011#32 = .ok (.blez 21 10 0xA5C3) ∧
    decodeWord 0b000111_10101_01010_1010010111000011#32 = .ok (.bgtz 21 10 0xA5C3) := by
  decide

/-- The instructions of 46_system.md. -/
theorem test_decode_system :
    decodeWord 0b000000_10101_01010_11001_00111_001100#32 = .ok (.syscall 21 10 25 7) ∧
    decodeWord 0b100010_10101001011100001111100001#32 = .ok (.lwl 0x2A5C3E1) ∧
    decodeWord 0b100110_10101001011100001111100001#32 = .ok (.lwr 0x2A5C3E1) ∧
    decodeWord 0b101010_10101001011100001111100001#32 = .ok (.swl 0x2A5C3E1) ∧
    decodeWord 0b101110_10101001011100001111100001#32 = .ok (.swr 0x2A5C3E1) ∧
    decodeWord 0b110000_10101001011100001111100001#32 = .ok (.lwc0 0x2A5C3E1) ∧
    decodeWord 0b110001_10101001011100001111100001#32 = .ok (.lwc1 0x2A5C3E1) ∧
    decodeWord 0b110010_10101001011100001111100001#32 = .ok (.lwc2 0x2A5C3E1) ∧
    decodeWord 0b110011_10101001011100001111100001#32 = .ok (.lwc3 0x2A5C3E1) ∧
    decodeWord 0b111000_10101001011100001111100001#32 = .ok (.swc0 0x2A5C3E1) ∧
    decodeWord 0b111001_10101001011100001111100001#32 = .ok (.swc1 0x2A5C3E1) ∧
    decodeWord 0b111010_10101001011100001111100001#32 = .ok (.swc2 0x2A5C3E1) ∧
    decodeWord 0b111011_10101001011100001111100001#32 = .ok (.swc3 0x2A5C3E1) ∧
    decodeWord 0b010000_10101001011100001111100001#32 = .ok (.cop0 0x2A5C3E1) ∧
    decodeWord 0b010001_10101001011100001111100001#32 = .ok (.cop1 0x2A5C3E1) ∧
    decodeWord 0b010010_10101001011100001111100001#32 = .ok (.cop2 0x2A5C3E1) ∧
    decodeWord 0b010011_10101001011100001111100001#32 = .ok (.cop3 0x2A5C3E1) := by
  decide


/-- Words of 95_test_vectors.md section 8.2 that decode to nothing (R90). -/
theorem test_decode_illegal :
    decodeWord 0x0000000D#32 = .error (.illegalFunction 0x0D) ∧
    decodeWord 0x0000082D#32 = .error (.illegalFunction 0x2D) ∧
    decodeWord 0x04020000#32 = .error (.illegalRegimm 0x02) ∧
    decodeWord 0x041F0000#32 = .error (.illegalRegimm 0x1F) ∧
    decodeWord 0x50000000#32 = .error (.illegalOpcode 0x14) ∧
    decodeWord 0xFFFFFFFF#32 = .error (.illegalOpcode 0x3F) := by
  decide

/-- The decoder is given bytes, most significant first; fewer than four are no instruction (R80). -/
theorem test_decode_bytes :
    decodeBytes [0x24, 0xAA, 0x00, 0x14] = .ok (.addiu 5 10 20) ∧
    decodeBytes [0x24, 0xAA] = .error (.notOneWord 2) := by
  decide

/-! ### One step from a small state -/

/-- RAM of the test platform T (D23) with section 6's bytes from 0x100 on and then the word `w` at `a`. -/
def ram (a w : Word) : MemoryDevice :=
  { size := Config.memSize
    mem := (Memory.writeBytes [] 0x100 [0x80, 0x01, 0xFF, 0x7F, 0x00, 0x7F, 0xFF, 0x7F]).writeBytes
      a.toNat (splitBytes .word w) }

/-- Platform T with `w` at pc = `a`, the registers given, hi = 0x11111111, lo = 0x22222222, the rest zero. -/
def platformAt (a w : Word) (regs : List (RegIdx × Word)) : State :=
  regs.foldl (fun s p => s.writeReg p.1 p.2)
    ((((State.reset.mapRegion (.memory (ram a w)) 0x0 0xFFF false).2.setPc a).setHi 0x11111111).setLo 0x22222222)

/-- `f` of the state after one step; none if there is no next state. -/
def afterAt {α : Type} (a w : Word) (regs : List (RegIdx × Word)) (f : State → α) : Option α :=
  match step (platformAt a w regs) with
  | .next t => some (f t)
  | _ => none

/-- The `n` bytes of memory from address `k` on. -/
def bytesFrom (k n : Nat) (t : State) : List (Option Byte) :=
  (List.range n).map fun i => peekByte t.regions (BitVec.ofNat 32 (k + i))

/-- `afterAt` for an instruction at address 0. -/
def after {α : Type} (w : Word) (regs : List (RegIdx × Word)) (f : State → α) : Option α := afterAt 0 w regs f

/-! ### 40_alu_register.md: vectors of section 2 -/

/-- R111: signed overflow wraps. -/
theorem test_add_wraps :
    after 0x00221820#32 [(1, 0x7FFFFFFF), (2, 0x00000001)] (State.readReg · 3) = some 0x80000000 := by decide

/-- R112: the carry is dropped. -/
theorem test_addu_wraps :
    after 0x00221821#32 [(1, 0xFFFFFFFF), (2, 0x00000001)] (State.readReg · 3) = some 0x00000000 := by decide

/-- R113: x[rs] - x[rt]. -/
theorem test_sub_order :
    after 0x00221822#32 [(1, 0x00000005), (2, 0xFFFFFFFD)] (State.readReg · 3) = some 0x00000008 := by decide

/-- R114: the borrow is dropped. -/
theorem test_subu_borrow :
    after 0x00221823#32 [(1, 0x00000000), (2, 0x00000001)] (State.readReg · 3) = some 0xFFFFFFFF := by decide

/-- R115. -/
theorem test_and :
    after 0x00221824#32 [(1, 0x12345678), (2, 0x0F0F0F0F)] (State.readReg · 3) = some 0x02040608 := by decide

/-- R116. -/
theorem test_or :
    after 0x00221825#32 [(1, 0x12345678), (2, 0x0F0F0F0F)] (State.readReg · 3) = some 0x1F3F5F7F := by decide

/-- R117. -/
theorem test_xor :
    after 0x00221826#32 [(1, 0x12345678), (2, 0x0F0F0F0F)] (State.readReg · 3) = some 0x1D3B5977 := by decide

/-- R118. -/
theorem test_nor :
    after 0x00221827#32 [(1, 0x12345678), (2, 0x0F0F0F0F)] (State.readReg · 3) = some 0xE0C0A080 := by decide

/-- R119: -1 is below 1. -/
theorem test_slt_signed :
    after 0x0022182A#32 [(1, 0xFFFFFFFF), (2, 0x00000001)] (State.readReg · 3) = some 0x00000001 := by decide

/-- R120: 0xFFFFFFFF is not below 1. -/
theorem test_sltu_unsigned :
    after 0x0022182B#32 [(1, 0xFFFFFFFF), (2, 0x00000001)] (State.readReg · 3) = some 0x00000000 := by decide

/-- R111: the destination is both sources. -/
theorem test_add_in_place :
    after 0x00210820#32 [(1, 0x40000000)] (State.readReg · 1) = some 0x80000000 := by decide

/-! ### 41_shift.md: vectors of section 3 -/

/-- R131. -/
theorem test_sll_31 : after 0x00021FC0#32 [(2, 0x80000001)] (State.readReg · 3) = some 0x80000000 := by decide

/-- R132: zeros shift in. -/
theorem test_srl_4 : after 0x00021902#32 [(2, 0x80000001)] (State.readReg · 3) = some 0x08000000 := by decide

/-- R133: the sign shifts in. -/
theorem test_sra_4 : after 0x00021903#32 [(2, 0x80000001)] (State.readReg · 3) = some 0xF8000000 := by decide

/-- R134: x[rs] by the low 5 bits of x[rt]. -/
theorem test_sllv_roles :
    after 0x00221804#32 [(1, 0x80000001), (2, 0x00000024)] (State.readReg · 3) = some 0x00000010 := by decide

/-- R135: x[rs] by the low 5 bits of x[rt]. -/
theorem test_srlv_roles :
    after 0x00221806#32 [(1, 0x00000004), (2, 0x80000001)] (State.readReg · 3) = some 0x00000002 := by decide

/-- R136: x[rt] by the low 5 bits of x[rs]. -/
theorem test_srav_roles :
    after 0x00221807#32 [(1, 0x00000024), (2, 0x80000001)] (State.readReg · 3) = some 0xF8000000 := by decide

/-! ### 42_muldiv_hilo.md: vectors of section 4 -/

/-- R141: -2 times 3. -/
theorem test_mult_signed :
    after 0x00220818#32 [(1, 0xFFFFFFFE), (2, 0x00000003)] (fun t => (t.hi, t.lo)) =
      some (0xFFFFFFFF, 0xFFFFFFFA) := by decide

/-- R142. -/
theorem test_multu_unsigned :
    after 0x00220819#32 [(1, 0xFFFFFFFE), (2, 0x00000003)] (fun t => (t.hi, t.lo)) =
      some (0x00000002, 0xFFFFFFFA) := by decide

/-- R143: -7 by 2 is -3, remainder -1. -/
theorem test_div_truncates :
    after 0x0022081A#32 [(1, 0xFFFFFFF9), (2, 0x00000002)] (fun t => (t.hi, t.lo)) =
      some (0xFFFFFFFF, 0xFFFFFFFD) := by decide

/-- R143 with DIV_OVERFLOW = wrap. -/
theorem test_div_overflow :
    after 0x0022081A#32 [(1, 0x80000000), (2, 0xFFFFFFFF)] (fun t => (t.hi, t.lo)) =
      some (0x00000000, 0x80000000) := by decide

/-- R144. -/
theorem test_divu :
    after 0x0022081B#32 [(1, 0xFFFFFFF9), (2, 0x00000002)] (fun t => (t.hi, t.lo)) =
      some (0x00000001, 0x7FFFFFFC) := by decide

/-- R144, R256: hi and lo stay. -/
theorem test_divu_by_zero :
    after 0x0022081B#32 [(1, 0x00000007)] (fun t => (t.hi, t.lo, t.status)) =
      some (0x11111111, 0x22222222, .fault (.divideByZero 0x0022081B)) := by decide

/-- R146. -/
theorem test_mfhi : after 0x00003810#32 [] (State.readReg · 7) = some 0x11111111 := by decide

/-- R147. -/
theorem test_mflo : after 0x00003012#32 [] (State.readReg · 6) = some 0x22222222 := by decide

/-- R148: the source is x[rd]. -/
theorem test_mthi_reads_rd :
    after 0x00802811#32 [(4, 0xAAAAAAAA), (5, 0x55555555)] (fun t => (t.hi, t.lo)) =
      some (0x55555555, 0x22222222) := by decide

/-- R149: lo is written (90_conflicts.md C6). -/
theorem test_mtlo :
    after 0x00002013#32 [(4, 0xABCD0123)] (fun t => (t.hi, t.lo)) = some (0x11111111, 0xABCD0123) := by decide

/-! ### 43_alu_immediate.md: vectors of section 5 -/

/-- R161: adds -1. -/
theorem test_addi_signed :
    after 0x2022FFFF#32 [(1, 0x00000005)] (State.readReg · 2) = some 0x00000004 := by decide

/-- R162: adds 65535. -/
theorem test_addiu_unsigned :
    after 0x2422FFFF#32 [(1, 0x00000005)] (State.readReg · 2) = some 0x00010004 := by decide

/-- R163: -3 is below -2. -/
theorem test_slti : after 0x2822FFFE#32 [(1, 0xFFFFFFFD)] (State.readReg · 2) = some 0x00000001 := by decide

/-- R164: compared with 0x0000FFFF. -/
theorem test_sltiu : after 0x2C22FFFF#32 [(1, 0x00010000)] (State.readReg · 2) = some 0x00000000 := by decide

/-- R164: with SLTIU_IMM_EXT = sign the same row compares with 0xFFFFFFFF. -/
theorem test_sltiu_sign : lessUnsigned 0x10000 (sltiuImm .sign 0xFFFF) = true := by decide

/-- R165. -/
theorem test_andi : after 0x3022FF00#32 [(1, 0x8001FF7F)] (State.readReg · 2) = some 0x0000FF00 := by decide

/-- R166. -/
theorem test_ori : after 0x34228000#32 [(1, 0x12340000)] (State.readReg · 2) = some 0x12348000 := by decide

/-- R167. -/
theorem test_xori : after 0x3822FFFF#32 [(1, 0x8001FF7F)] (State.readReg · 2) = some 0x80010080 := by decide

/-- R168: rs is ignored. -/
theorem test_lui :
    after 0x3D21FFFF#32 [(1, 0x00000007), (9, 0x00000077)] (State.readReg · 1) = some 0xFFFF0000 := by decide

/-! ### 44_load_store.md: vectors of section 6 -/

/-- R182. -/
theorem test_lb : after 0x80430000#32 [(2, 0x00000100)] (State.readReg · 3) = some 0xFFFFFF80 := by decide

/-- R183. -/
theorem test_lbu : after 0x90430000#32 [(2, 0x00000100)] (State.readReg · 3) = some 0x00000080 := by decide

/-- R184 at an odd address. -/
theorem test_lhw_odd : after 0x84430001#32 [(2, 0x00000100)] (State.readReg · 3) = some 0x000001FF := by decide

/-- R184. -/
theorem test_lhw : after 0x84430002#32 [(2, 0x00000100)] (State.readReg · 3) = some 0xFFFFFF7F := by decide

/-- R185. -/
theorem test_lhwu : after 0x94430002#32 [(2, 0x00000100)] (State.readReg · 3) = some 0x0000FF7F := by decide

/-- R186: bytes 01 FF 7F 00. -/
theorem test_lw_unaligned :
    after 0x8C430001#32 [(2, 0x00000100)] (State.readReg · 3) = some 0x01FF7F00 := by decide

/-- R180: the address wraps to 0x100. -/
theorem test_lw_base_wraps :
    after 0x8C437FFF#32 [(2, 0xFFFF8101)] (State.readReg · 3) = some 0x8001FF7F := by decide

/-- R188. -/
theorem test_sb :
    after 0xA0410000#32 [(1, 0x8001FF7F), (2, 0x00000200)] (bytesFrom 0x200 2) =
      some [some 0x7F, some 0x00] := by decide

/-- R189 at an odd address. -/
theorem test_shw_odd :
    after 0xA4410001#32 [(1, 0x8001FF7F), (2, 0x00000200)] (bytesFrom 0x200 4) =
      some [some 0x00, some 0xFF, some 0x7F, some 0x00] := by decide

/-- R190. -/
theorem test_sw :
    after 0xAC410000#32 [(1, 0x8001FF7F), (2, 0x00000200)] (bytesFrom 0x200 4) =
      some [some 0x80, some 0x01, some 0xFF, some 0x7F] := by decide

/-- R47: not even the bytes that fit are written. -/
theorem test_sw_out_of_bounds :
    after 0xAC410000#32 [(1, 0x11223344), (2, 0x00000FFE)] (fun t => (t.status, peekByte t.regions 0xFFE)) =
      some (.fault (.outOfBounds 0xFFE), some 0x00) := by decide

/-- R51, R180. -/
theorem test_lb_unmapped :
    after 0x8003FFFF#32 [] State.status = some (.fault (.unmappedAddress 0xFFFFFFFF)) := by decide

/-! ### 45_branch_jump.md: vectors of section 7, the instruction at 0x100 -/

/-- R202, R200: 0x104 - 0x8000. -/
theorem test_beq_wraps : afterAt 0x00000100 0x10008000#32 [] State.pc = some 0xFFFF8104 := by decide

/-- R202. -/
theorem test_beq_not_taken :
    afterAt 0x00000100 0x10220008#32 [(1, 0x00000005), (2, 0x00000006)] State.pc = some 0x00000104 := by decide

/-- R203. -/
theorem test_bne : afterAt 0x00000100 0x1420FFF4#32 [(1, 0x00000001)] State.pc = some 0x000000F8 := by decide

/-- R204: taken at zero. -/
theorem test_blez_zero : afterAt 0x00000100 0x18200008#32 [] State.pc = some 0x0000010C := by decide

/-- R205: not taken at zero. -/
theorem test_bgtz_zero : afterAt 0x00000100 0x1C200008#32 [] State.pc = some 0x00000104 := by decide

/-- R205. -/
theorem test_bgtz_one :
    afterAt 0x00000100 0x1C200008#32 [(1, 0x00000001)] State.pc = some 0x0000010C := by decide

/-- R206. -/
theorem test_bltz : afterAt 0x00000100 0x04200008#32 [(1, 0x80000000)] State.pc = some 0x0000010C := by decide

/-- R207 with BGEZ_TAKEN_AT_ZERO = false. -/
theorem test_bgez_zero : afterAt 0x00000100 0x04210008#32 [] State.pc = some 0x00000104 := by decide

/-- R207. -/
theorem test_bgez_one :
    afterAt 0x00000100 0x04210008#32 [(1, 0x00000001)] State.pc = some 0x0000010C := by decide

/-- R208: the link is written all the same. -/
theorem test_bltzal_not_taken :
    afterAt 0x00000100 0x04300008#32 [] (fun t => (t.readReg 31, t.pc)) = some (0x108, 0x104) := by decide

/-- R208: the test sees the link value. -/
theorem test_bltzal_rs_31 :
    afterAt 0x00000100 0x07F00008#32 [(31, 0xFFFFFFFF)] (fun t => (t.readReg 31, t.pc)) =
      some (0x108, 0x104) := by decide

/-- R209: the test sees the link value. -/
theorem test_bgezal_rs_31 :
    afterAt 0x00000100 0x07F10008#32 [(31, 0xFFFFFFFF)] (fun t => (t.readReg 31, t.pc)) =
      some (0x108, 0x10C) := by decide

/-- R211. -/
theorem test_j : afterAt 0x00000100 0x0BFFFFFF#32 [] State.pc = some 0x0FFFFFFC := by decide

/-- R212. -/
theorem test_jal :
    afterAt 0x00000100 0x0C000004#32 [] (fun t => (t.readReg 31, t.pc)) = some (0x108, 0x10) := by decide

/-- R210: A = 0x0FFFFFFC, so the advanced pc 0x10000000 supplies the segment. -/
theorem test_jump_segment :
    jumpTarget 0x10000000 0 = 0x10000000 ∧ jumpTarget 0x50000014 0x40 = 0x50000100 := by decide

/-- R213: any value. -/
theorem test_jr : afterAt 0x00000100 0x00200808#32 [(1, 0xFFFFFFFD)] State.pc = some 0xFFFFFFFD := by decide

/-- R92: the MIPS encoding of jr $31. -/
theorem test_jr_rd_zero :
    afterAt 0x00000100 0x03E00008#32 [(31, 0x00000108)] (fun t => (t.pc, t.status)) =
      some (0x104, .fault (.zeroRegisterWrite 0x03E00008)) := by decide

/-- R214. -/
theorem test_jalr_no_link :
    afterAt 0x00000100 0x00800809#32 [(4, 0x00000200), (1, 0x00000077), (31, 0x00000055)]
      (fun t => (t.readReg 1, t.readReg 31, t.pc)) =
      some (0x77, 0x55, 0x200) := by decide

/-! ### 46_system.md, and the stops of sections 8 and 10 -/

/-- R230: code 10, rd ignored. -/
theorem test_syscall_halts : after 0x0000FA8C#32 [(1, 0x0000000A)] State.status = some .halted := by decide

/-- R230: code 1034. -/
theorem test_syscall_field_numbers :
    after 0x0020028C#32 [(1, 0x00000000), (10, 0x0000000A)] State.status = some .running := by decide

/-- R231: refused before any register test. -/
theorem test_lwl_rt_zero :
    after 0x88000000#32 [] (fun t => (t.pc, t.status)) =
      some (0x4, .fault (.notImplemented 0x88000000)) := by decide

/-- R238. -/
theorem test_cop3 :
    after 0x4C000000#32 [] State.status = some (.fault (.notImplemented 0x4C000000)) := by decide

/-- R259: the function before rd. -/
theorem test_illegal_before_rd :
    after 0x00000005#32 [] State.status = some (.fault (.illegalInstruction 0x00000005)) := by decide

/-- R260, D22: a fetch outside RAM leaves pc where it was; reset's region table is empty. -/
theorem test_fetch_unmapped :
    step (State.reset.setPc 0x1000) = .next ((State.reset.setPc 0x1000).raise (.unmappedAddress 0x1000)) :=
  rfl

/-- The placed word is what the first step after reset runs (log 7). -/
theorem test_placed_word_runs :
    (match step (State.reset.withFetchWord 32 0x24AA0014) with
      | .next t => some (t.readReg 10, t.pc, t.status)
      | _ => none) = some (20, 4, .running) := by
  decide

/-- R28: no step from Halted. -/
theorem test_halted_takes_no_step : step State.reset.halt = .fault .halted := rfl

/-! ### The Memory Mapper: vectors of section 9 -/

/-- M5's table: A = 0x1000 bytes at 0, then B = 0x10 bytes over 0x100, remapped. -/
def tableAB : List Region :=
  ((State.reset.mapRegion (.memory (MemoryDevice.new 0x1000)) 0x0 0xFFF false).2.mapRegion
    (.memory (MemoryDevice.new 0x10)) 0x100 0x10F true).2.regions

/-- M5: the write goes to B at local 0x4; A is not reached. -/
theorem test_mapper_last_mapped_wins :
    (access tableAB 0x104 fun l => .write .word l [0xAA, 0xAA, 0xAA, 0xAA]).2.map Region.device =
      [.memory { size := 0x10, mem := [(4, 0xAA), (5, 0xAA), (6, 0xAA), (7, 0xAA)] },
       .memory { size := 0x1000, mem := [] }] := by
  decide

/-- M7: resolved by its first byte alone, so A is not consulted for the bytes beyond B. -/
theorem test_mapper_first_byte_resolves :
    (access tableAB 0x10E (.read .word)).1 = .error (.outOfBounds 0xE) := by
  decide

/-- M10: `end` is inclusive, and an access does not wrap. -/
theorem test_mapper_end_inclusive :
    (access tableAB 0xFFF (.read .byte)).1 = .ok [0x00] ∧
    (access tableAB 0x1000 (.read .byte)).1 = .error (.unmappedAddress 0x1000) := by
  decide

/-- M13: a region with start > end covers nothing. -/
theorem test_mapper_empty_region :
    (access (State.reset.mapRegion (.memory (MemoryDevice.new 0x1000)) 0x20 0x10 false).2.regions 0x18
      (.read .byte)).1 = .error (.unmappedAddress 0x18) := by
  decide

/-- M4: without remap the device sees the global address. -/
theorem test_mapper_no_remap :
    (access (State.reset.mapRegion (.memory (MemoryDevice.new 0x100)) 0x8000 0x80FF false).2.regions 0x8004
      (.read .word)).1 = .error (.outOfBounds 0x8004) := by
  decide

/-! ### Witnesses: concrete inputs that meet the hypotheses of each statement together -/

/-- A running machine with the halting SYSCALL at pc = 0x100 and some register values. -/
def halting : State :=
  platformAt 0x100 0x0000028C [(1, 0xFFC), (2, 0xFFFFFFFF), (3, 0x80000000), (4, 0x1000), (5, 0x100), (6, 0xFFD)]

/-- The same platform with `SW rs=5, rt=2` at pc, which stores over its own word. -/
def storing : State := platformAt 0x100 0xACA20000 [(2, 0x0000028C), (5, 0x100)]

/-- A device of unknown behaviour at 0x800 to 0x8FF, over RAM that the platform mapped before. -/
def withDevice : State := (halting.mapRegion (.other 7 []) 0x800 0x8FF true).2

/-- The one region of `halting`. -/
def ramRegion (w : Word) : Region :=
  { handle := 0, device := .memory (ram 0x100 w), start := 0x0, last := 0xFFF, remap := false }

/-- What `halting` is as data: the invariant's parts can be read off. -/
theorem halting_wf : halting.wf := by
  refine ⟨by decide, fun r hr => ?_, by decide, by decide⟩
  obtain rfl : r = ramRegion 0x0000028C := List.mem_singleton.1 hr
  exact ⟨⟨by decide, by decide⟩, by decide⟩

theorem storing_wf : storing.wf := by
  refine ⟨by decide, fun r hr => ?_, by decide, by decide⟩
  obtain rfl : r = ramRegion 0xACA20000 := List.mem_singleton.1 hr
  exact ⟨⟨by decide, by decide⟩, by decide⟩

/-- RAM and two devices of unknown behaviour. -/
theorem threeRegions_wf : (withDevice.mapRegion (.other 8 []) 0x900 0x9FF true).2.wf := by
  refine ⟨by decide, fun r hr => ?_, by decide, by decide⟩
  rcases List.mem_cons.1 hr with rfl | hr
  · exact trivial
  rcases List.mem_cons.1 hr with rfl | hr
  · exact trivial
  · exact halting_wf.2.1 r hr

/-- The last addresses of RAM at which an access of each width still fits. -/
theorem halting_reaches :
    Reaches halting .byte 0xFFF (ramRegion 0x0000028C) (ram 0x100 0x0000028C) ∧
    Reaches halting .half 0xFFE (ramRegion 0x0000028C) (ram 0x100 0x0000028C) ∧
    Reaches halting .word 0xFFC (ramRegion 0x0000028C) (ram 0x100 0x0000028C) ∧
    Reaches halting .word 0x100 (ramRegion 0x0000028C) (ram 0x100 0x0000028C) :=
  ⟨⟨by decide, rfl, by decide⟩, ⟨by decide, rfl, by decide⟩, ⟨by decide, rfl, by decide⟩, ⟨by decide, rfl, by decide⟩⟩

theorem witness_EncodeOfDecode :
    decodeWord 0x03FFFFCC#32 = .ok (.syscall 31 31 31 31) ∧ decodeWord 0x0BFFFFFF#32 = .ok (.j 0x3FFFFFF) := by
  decide

theorem witness_TableWordDecodesAsWord : decodeTableWord 32 0x8C490001 = some (.lw 2 9 1) := by decide

theorem witness_StepRunsTheDecodedInstruction :
    halting.status = .running ∧ fetch halting = (.ok 0x0000028C#32, halting) ∧
      decodeWord 0x0000028C#32 = .ok (.syscall 0 0 0 10) := by
  decide

theorem witness_StepRunsTheBytesAtPc :
    halting.status = .running ∧ Reaches halting .word halting.pc (ramRegion 0x0000028C) (ram 0x100 0x0000028C) ∧
      decodeWord (byteAfter (ramRegion 0x0000028C) (ram 0x100 0x0000028C) halting.pc 0 ++
        byteAfter (ramRegion 0x0000028C) (ram 0x100 0x0000028C) halting.pc 1 ++
        byteAfter (ramRegion 0x0000028C) (ram 0x100 0x0000028C) halting.pc 2 ++
        byteAfter (ramRegion 0x0000028C) (ram 0x100 0x0000028C) halting.pc 3) = .ok (.syscall 0 0 0 10) :=
  ⟨by decide, halting_reaches.2.2.2, by decide⟩

theorem witness_IllegalWordStops :
    (platformAt 0 0xFFFFFFFF []).status = .running ∧
      fetch (platformAt 0 0xFFFFFFFF []) = (.ok 0xFFFFFFFF#32, platformAt 0 0xFFFFFFFF []) ∧
      decodeWord 0xFFFFFFFF#32 = .error (.illegalOpcode 0x3F) := by
  decide

/-- Each place a fetch can reach, at a boundary: the last word of RAM, the first address where RAM holds no
four bytes, the first and the last address that no region covers, and the first and the last address of
another device. -/
theorem witness_FetchResults :
    Reaches (halting.setPc 0xFFC) .word (halting.setPc 0xFFC).pc (ramRegion 0x0000028C) (ram 0x100 0x0000028C) ∧
    (resolve (halting.setPc 0xFFD).regions (halting.setPc 0xFFD).pc = some (ramRegion 0x0000028C) ∧
      (ramRegion 0x0000028C).device = .memory (ram 0x100 0x0000028C) ∧
      (ram 0x100 0x0000028C).size < ((ramRegion 0x0000028C).translate (halting.setPc 0xFFD).pc).toNat + 4) ∧
    (resolve (halting.setPc 0x1000).regions (halting.setPc 0x1000).pc = none ∧
      resolve (halting.setPc 0xFFFFFFFF).regions (halting.setPc 0xFFFFFFFF).pc = none) ∧
    (withDevice.setPc 0x800).regions = [] ++
      { handle := 1, device := .other 7 [], start := 0x800, last := 0x8FF, remap := true } ::
        [ramRegion 0x0000028C] ∧
    Region.covers { handle := 1, device := .other 7 [], start := 0x800, last := 0x8FF, remap := true }
      (withDevice.setPc 0x800).pc = true ∧
    (withDevice.setPc 0x8FF).regions = (withDevice.setPc 0x800).regions ∧
    Region.covers { handle := 1, device := .other 7 [], start := 0x800, last := 0x8FF, remap := true }
      (withDevice.setPc 0x8FF).pc = true :=
  ⟨⟨by decide, rfl, by decide⟩, ⟨by decide, rfl, by decide⟩, by decide, by decide⟩

/-- The states of `witness_FetchResults` where no word is fetched are running, and one fetch fails. -/
theorem witness_FailedFetchLeavesPc :
    (halting.setPc 0xFFD).status = .running ∧
      fetch (halting.setPc 0xFFD) = (.error (.outOfBounds 0xFFD), halting.setPc 0xFFD) ∧
      (halting.setPc 0x1000).status = .running ∧ (halting.setPc 0xFFFFFFFF).status = .running ∧
      (withDevice.setPc 0x800).status = .running ∧ (withDevice.setPc 0x8FF).status = .running := by
  decide

theorem witness_StoppedMachineTakesNoStep :
    halting.halt.status ≠ .running ∧ (halting.raise (.unmappedAddress 0x1000)).status ≠ .running := by
  decide

theorem witness_RunningMachineAlwaysSteps : State.reset.status = .running ∧ withDevice.status = .running := by decide

theorem witness_OnlySyscallTenHalts :
    step halting = .next (halting.setPc 0x104).halt ∧ (halting.setPc 0x104).halt.status = .halted :=
  ⟨rfl, rfl⟩

/-- A stop at the fetch, with pc left, and a stop of an instruction, with pc advanced. -/
theorem witness_FatalStopIsPrecise :
    step State.reset = .next (State.reset.raise (.unmappedAddress 0)) ∧
    step (platformAt 0 0x00000000 []) =
      .next (((platformAt 0 0x00000000 []).setPc 4).raise (.zeroRegisterWrite 0x00000000)) :=
  ⟨rfl, rfl⟩

theorem witness_StepKeepsInvariant : halting.wf ∧ step halting = .next (halting.setPc 0x104).halt :=
  ⟨halting_wf, rfl⟩

theorem witness_RunKeepsTopology : run 2 halting = .next (halting.setPc 0x104).halt := rfl

theorem witness_RunStopsForGood :
    run 2 halting = .next (halting.setPc 0x104).halt ∧ (halting.setPc 0x104).halt.status ≠ .running :=
  ⟨rfl, by decide⟩

/-- A word placed in RAM, in place of a word that runs off RAM's end, and at the top of an empty space. -/
theorem witness_PlacedWordRunsNext :
    halting.wf ∧ (halting.setPc 0xFFD).wf ∧ (State.reset.setPc 0xFFFFFFFF).wf ∧
      decodeWord 0x0000028C#32 = .ok (.syscall 0 0 0 10) :=
  ⟨halting_wf, halting_wf, ⟨by decide, fun _ h => absurd h (List.not_mem_nil), by decide, by decide⟩, by decide⟩

theorem witness_OnlyControlTransferWritesPc :
    exec (.add 1 2 3 0) halting = .next (halting.writeReg 3 0xFFB) ∧ writesPc (.add 1 2 3 0) = false :=
  ⟨rfl, rfl⟩

theorem witness_OnlyMulDivMovesWriteHiLo :
    exec (.mfhi 0 0 1 0) halting = .next (halting.writeReg 1 0x11111111) ∧ writesHiLo (.mfhi 0 0 1 0) = false :=
  ⟨rfl, rfl⟩

theorem witness_OnlyStoresWriteMemory :
    exec (.lb 1 3 3) halting = .next (halting.writeReg 3 0) ∧ writesMemory (.lb 1 3 3) = false :=
  ⟨rfl, rfl⟩

/-- JAL changes register 31. -/
theorem witness_OnlyTheDestinationIsWritten :
    exec (.jal 0) halting = .next ((halting.writeReg 31 0x104).setPc 0) ∧
      ((halting.writeReg 31 0x104).setPc 0).readReg 31 ≠ halting.readReg 31 :=
  ⟨rfl, by decide⟩

theorem witness_ZeroDestinationComesFirst :
    (Instr.div 31 0 0 0).wellFormed = false ∧ (Instr.lw 4 0 0xFFFF).wellFormed = false := by
  decide

theorem witness_OnlyZeroDestinationRaisesIt :
    halting.status = .running ∧
      exec (.div 1 0 0 0) halting = .next (halting.raise (.zeroRegisterWrite 0x0020001A)) :=
  ⟨rfl, rfl⟩

theorem witness_ZeroDestinationStopsEveryFunction : Instr.sll ∈ [Instr.sll, .srl, .sra] := List.mem_cons_self

theorem witness_RefusedClassesStop : Instr.lwl ∈ [Instr.lwl, .lwr, .swl] := List.mem_cons_self

/-- The clauses of the statements that ask of a state and of operands only whether the destination is register
0 (AddSubResults, AdduSubuResults, LogicResults, CompareResults, ImmediateShiftResults,
VariableShiftResults, MultiplyResults, HiLoMoves, AddImmediateResults, CompareImmediateResults,
LogicImmediateResults, RegisterJumpResults): the least and the greatest register that is not, and
register 0. The operands are those of three instructions of `halting`, each of which runs. -/
theorem witness_destinations :
    ((1#5 : RegIdx) ≠ 0#5 ∧ exec (.sub 0 2 1 0) halting = .next (halting.writeReg 1 1)) ∧
    ((31#5 : RegIdx) ≠ 0#5 ∧ exec (.xori 4 31 0xFFFF) halting = .next (halting.writeReg 31 0xEFFF)) ∧
    ((0#5 : RegIdx) = 0#5 ∧
      exec (.jr 4 0 0 0) halting = .next (halting.raise (.zeroRegisterWrite 0x00800008))) :=
  ⟨⟨by decide, rfl⟩, ⟨by decide, rfl⟩, ⟨rfl, rfl⟩⟩

/-- DivResult: a divisor that is not 0, in the overflowing case and outside it. -/
theorem witness_DivResult :
    (1#5 : RegIdx) ≠ 0#5 ∧ halting.readReg 2 ≠ 0#32 ∧
      (halting.readReg 3 = 0x80000000#32 ∧ halting.readReg 2 = 0xFFFFFFFF#32) ∧
      ¬ (halting.readReg 1 = 0x80000000#32 ∧ halting.readReg 2 = 0xFFFFFFFF#32) := by
  decide

/-- Each clause: a divisor that is not 0, a zero divisor, rd = 0. -/
theorem witness_DivuResult :
    (31#5 : RegIdx) ≠ 0#5 ∧ halting.readReg 2 ≠ 0#32 ∧ halting.readReg 30 = 0#32 ∧ (0#5 : RegIdx) = 0#5 := by
  decide

theorem witness_DivideByZeroStops : (1#5 : RegIdx) ≠ 0#5 ∧ halting.readReg 0 = 0#32 ∧ halting.readReg 30 = 0#32 := by
  decide

/-- Each width at the last address that fits. -/
theorem witness_LoadResults :
    (31#5 : RegIdx) ≠ 0#5 ∧
    Reaches halting .byte (effectiveAddress halting 1 3) (ramRegion 0x0000028C) (ram 0x100 0x0000028C) ∧
    Reaches halting .half (effectiveAddress halting 1 2) (ramRegion 0x0000028C) (ram 0x100 0x0000028C) ∧
    Reaches halting .word (effectiveAddress halting 1 0) (ramRegion 0x0000028C) (ram 0x100 0x0000028C) :=
  ⟨by decide, halting_reaches.1, halting_reaches.2.1, halting_reaches.2.2.1⟩

theorem witness_StoreResults :
    halting.wf ∧
    Reaches halting .byte (effectiveAddress halting 1 3) (ramRegion 0x0000028C) (ram 0x100 0x0000028C) ∧
    Reaches halting .half (effectiveAddress halting 1 2) (ramRegion 0x0000028C) (ram 0x100 0x0000028C) ∧
    Reaches halting .word (effectiveAddress halting 1 0) (ramRegion 0x0000028C) (ram 0x100 0x0000028C) :=
  ⟨halting_wf, halting_reaches.1, halting_reaches.2.1, halting_reaches.2.2.1⟩

/-- The first unmapped address and the last. -/
theorem witness_UnmappedAccessStops :
    (1#5 : RegIdx) ≠ 0#5 ∧ resolve halting.regions (effectiveAddress halting 4 0) = none ∧
      resolve halting.regions (effectiveAddress halting 0 0xFFFF) = none := by
  decide

/-- The first address at which a word, and a half-word, no longer fit; a byte beyond a device of no bytes. -/
theorem witness_OutOfBoundsAccessStops :
    (Instr.lw 6 3 0).wellFormed = true ∧
      resolve halting.regions (effectiveAddress halting 6 0) = some (ramRegion 0x0000028C) ∧
      (ram 0x100 0x0000028C).size <
        ((ramRegion 0x0000028C).translate (effectiveAddress halting 6 0)).toNat + Width.word.bytes ∧
      resolve halting.regions (effectiveAddress halting 6 2) = some (ramRegion 0x0000028C) ∧
      (ram 0x100 0x0000028C).size <
        ((ramRegion 0x0000028C).translate (effectiveAddress halting 6 2)).toNat + Width.half.bytes ∧
      (State.reset.mapRegion (.memory (MemoryDevice.new 0)) 0 0 false).2.regions.map (fun r =>
        decide ((MemoryDevice.new 0).size < (r.translate 0).toNat + Width.byte.bytes)) = [true] := by
  decide

/-- The first address of the device's region, with the RAM region behind it. -/
theorem witness_OtherDeviceLoad :
    (31#5 : RegIdx) ≠ 0#5 ∧
      withDevice.regions = [] ++
        { handle := 1, device := .other 7 [], start := 0x800, last := 0x8FF, remap := true } ::
          [ramRegion 0x0000028C] ∧
      Region.covers { handle := 1, device := .other 7 [], start := 0x800, last := 0x8FF, remap := true }
        (effectiveAddress withDevice 0 0x800) = true := by
  decide

/-- The last address of the device's region, behind a region that does not cover it. -/
theorem witness_OtherDeviceStore :
    (withDevice.mapRegion (.other 8 []) 0x900 0x9FF true).2.regions =
        [{ handle := 2, device := .other 8 [], start := 0x900, last := 0x9FF, remap := true }] ++
        { handle := 1, device := .other 7 [], start := 0x800, last := 0x8FF, remap := true } ::
          [ramRegion 0x0000028C] ∧
      Region.covers { handle := 2, device := .other 8 [], start := 0x900, last := 0x9FF, remap := true }
        (effectiveAddress withDevice 0 0x8FF) = false ∧
      Region.covers { handle := 1, device := .other 7 [], start := 0x800, last := 0x8FF, remap := true }
        (effectiveAddress withDevice 0 0x8FF) = true := by
  decide

theorem witness_WordRoundTrip :
    halting.wf ∧ Reaches halting .word 0xFFC (ramRegion 0x0000028C) (ram 0x100 0x0000028C) :=
  ⟨halting_wf, halting_reaches.2.2.1⟩

theorem witness_StoredWordIsExecuted :
    storing.wf ∧ storing.status = .running ∧ effectiveAddress storing 5 0 = storing.pc ∧
      Reaches storing .word storing.pc (ramRegion 0xACA20000) (ram 0x100 0xACA20000) ∧
      exec (.sw 5 2 0) storing = .next (memWrite storing .word 0x100 0x0000028C).2 ∧
      decodeWord (storing.readReg 2) = .ok (.syscall 0 0 0 10) :=
  ⟨storing_wf, by decide, by decide, ⟨by decide, rfl, by decide⟩, rfl, by decide⟩

/-- Both ends of a region, and an address that no region covers. -/
theorem witness_FirstCoveringRegionWins :
    resolve tableAB 0x100 = tableAB[0]? ∧ resolve tableAB 0x10F = tableAB[0]? ∧ resolve tableAB 0x110 = tableAB[1]? ∧
      ∀ q ∈ tableAB, ¬ (q.start.toNat ≤ (0x1000 : Word).toNat ∧ (0x1000 : Word).toNat ≤ q.last.toNat) := by
  decide

/-- The two clauses on translation: a remapped region at both its ends, and one that is not. -/
theorem witness_FirstCoveringRegionWins_translation :
    ((resolve tableAB 0x100).map Region.remap = some true ∧ (resolve tableAB 0x10F).map Region.remap = some true) ∧
      (resolve tableAB 0x110).map Region.remap = some false := by
  decide

/-- The last address of both, and the first address of A alone beyond it. -/
theorem witness_LastMappedWins :
    ((0x0 : Word).toNat ≤ (0x10F : Word).toNat ∧ (0x10F : Word).toNat ≤ (0xFFF : Word).toNat) ∧
    ((0x100 : Word).toNat ≤ (0x10F : Word).toNat ∧ (0x10F : Word).toNat ≤ (0x10F : Word).toNat) ∧
    ((0x0 : Word).toNat ≤ (0x110 : Word).toNat ∧ (0x110 : Word).toNat ≤ (0xFFF : Word).toNat) ∧
    ¬ ((0x100 : Word).toNat ≤ (0x110 : Word).toNat ∧ (0x110 : Word).toNat ≤ (0x10F : Word).toNat) := by
  decide

/-- A region in the middle of the table, with its last address covered by none in front of it; and a device to
map. -/
theorem witness_UnmapUncovers :
    (withDevice.mapRegion (.other 8 []) 0x900 0x9FF true).2.wf ∧
      (withDevice.mapRegion (.other 8 []) 0x900 0x9FF true).2.regions =
        [{ handle := 2, device := .other 8 [], start := 0x900, last := 0x9FF, remap := true }] ++
        { handle := 1, device := .other 7 [], start := 0x800, last := 0x8FF, remap := true } ::
          [ramRegion 0x0000028C] ∧
      Region.covers { handle := 2, device := .other 8 [], start := 0x900, last := 0x9FF, remap := true } 0x8FF =
        false ∧
      halting.wf ∧ Device.wf (.memory (MemoryDevice.new 0x10)) :=
  ⟨threeRegions_wf, by decide, by decide, halting_wf, ⟨⟨by decide, by decide⟩, by decide⟩⟩

/-- Each condition met and not met, at zero and beside it. -/
theorem witness_BranchResults :
    halting.readReg 7 = halting.readReg 0 ∧ halting.readReg 1 ≠ halting.readReg 0 ∧
    (halting.readReg 0).toInt ≤ 0 ∧ ¬ (halting.readReg 1).toInt ≤ 0 ∧
    0 < (halting.readReg 1).toInt ∧ ¬ 0 < (halting.readReg 0).toInt ∧
    (halting.readReg 2).toInt < 0 ∧ ¬ (halting.readReg 0).toInt < 0 := by
  decide

/-- The same for the value a linking branch tests, register 31 among them. -/
theorem witness_LinkingBranchResults :
    (linkedValue halting 2).toInt < 0 ∧ ¬ (linkedValue halting 31).toInt < 0 ∧
    0 < (linkedValue halting 31).toInt ∧ ¬ 0 < (linkedValue halting 0).toInt := by
  decide

/-- The halting fields, and fields off by one in each. -/
theorem witness_SyscallResult :
    ((0#5 : RegIdx) = 0#5 ∧ (0#5 : RegIdx) = 0#5 ∧ (10#5 : Shamt) = 10#5) ∧
    ¬ ((1#5 : RegIdx) = 0#5 ∧ (0#5 : RegIdx) = 0#5 ∧ (10#5 : Shamt) = 10#5) ∧
    ¬ ((0#5 : RegIdx) = 0#5 ∧ (1#5 : RegIdx) = 0#5 ∧ (10#5 : Shamt) = 10#5) ∧
    ¬ ((0#5 : RegIdx) = 0#5 ∧ (0#5 : RegIdx) = 0#5 ∧ (11#5 : Shamt) = 10#5) := by
  decide

end Sys2Proof.Tests
end

section
/-! Memory read back after a write, and the region mapped last in front (20_memory.md R49, R51, R68, R69). -/

namespace Sys2Proof.Machine

/-! ### Read after write -/

/-- Bytes written are the bytes read back, from any address on (R45, R46). -/
theorem Memory.readBytes_writeBytes_self (m : Memory) (k : Nat) (bs : List Byte) (h : m.wf) :
    (m.writeBytes k bs).readBytes k bs.length = bs := by
  apply List.ext_getElem
  · simp [Memory.readBytes]
  · intro i _ hi
    simp [Memory.readBytes, Memory.read_writeBytes m k _ bs h, hi]

/-- In a state that meets the invariant, the memory that an access reaches is in canonical form. -/
theorem Reaches.mem_wf {s : State} {n : Width} {a : Word} {r : Region} {d : MemoryDevice}
    (h : Reaches s n a r d) (hs : s.wf) : d.mem.wf := by
  obtain ⟨-, hdev, -, -⟩ := hs
  have hd : r.device.wf := hdev r (resolve_some _ _ _ h.resolves).1
  rw [h.memory] at hd
  exact hd.1

/-- Translation does not look at the device (R52). -/
@[simp] theorem Region.translate_replace (r : Region) (dev : Device) (a : Word) :
    ({ r with device := dev } : Region).translate a = r.translate a := rfl

/-- An access still reaches a region whose Memory Device has been replaced, in its place in the table, by one
of the same size. -/
theorem Reaches.replace {s : State} {n : Width} {a : Word} {r : Region} {d : MemoryDevice}
    (h : Reaches s n a r d) (front back : List Region) (d' : MemoryDevice)
    (hfront : ∀ q ∈ front, q.covers a = false) (hsize : d'.size = d.size) :
    Reaches (s.setRegions (front ++ { r with device := .memory d' } :: back)) n a
      { r with device := .memory d' } d' where
  resolves := by
    have hr : r.covers a = true := (resolve_some _ _ _ h.resolves).2
    simp [resolve_replace, resolve_none_of_forall _ _ hfront, hr]
  memory := rfl
  inside := hsize ▸ h.inside

/-- A write that reaches a Memory Device raises nothing, and a read of the same width from the same address
then answers the bytes written (R45, R46). -/
theorem memRead_memWrite_reaches (s : State) (n : Width) (a v : Word) (r : Region) (d : MemoryDevice)
    (hs : s.wf) (h : Reaches s n a r d) :
    ∃ s', memWrite s n a v = (none, s') ∧ memRead s' n a = (.ok (assembleBytes (splitBytes n v)), s') := by
  obtain ⟨front, back, -, hfront, hwrite⟩ := memWrite_reaches s n a v r d h
  have hread := memRead_reaches _ n a _ _
    (h.replace front back { d with mem := d.mem.writeBytes (r.translate a).toNat (splitBytes n v) } hfront rfl)
  have hbytes := Memory.readBytes_writeBytes_self d.mem (r.translate a).toNat (splitBytes n v) (h.mem_wf hs)
  rw [splitBytes_length] at hbytes
  simp only [Region.translate_replace, hbytes] at hread
  exact ⟨_, hwrite, hread⟩

/-! ### Resolution -/

/-- The range of a region, both ends inclusive, in natural numbers (R48, R51). -/
theorem Region.covers_iff (r : Region) (a : Word) :
    r.covers a = true ↔ r.start.toNat ≤ a.toNat ∧ a.toNat ≤ r.last.toNat := by
  simp [Region.covers, BitVec.le_def]

/-- The region just mapped is searched first: it answers inside its own range, and elsewhere every address
resolves as before (R49, R51). -/
theorem resolve_mapRegion (s : State) (dev : Device) (start last a : Word) (remap : Bool) :
    resolve (s.mapRegion dev start last remap).2.regions a =
      if start.toNat ≤ a.toNat ∧ a.toNat ≤ last.toNat then
        some { handle := s.nextHandle, device := dev, start := start, last := last, remap := remap }
      else resolve s.regions a := by
  simp only [State.mapRegion_regions, resolve_cons, Region.covers_iff]

end Sys2Proof.Machine

namespace Sys2Proof.Proofs

open Sys2Proof Sys2Proof.Machine

/-- Settles O48: the write and the read reach the same device, and a word's bytes assembled are the word. -/
theorem wordRoundTrip : Obligations.WordRoundTrip := by
  intro s a v r d hs h
  have hread := memRead_memWrite_reaches s .word a v r d hs h
  rwa [assemble_split_word] at hread

/-- Settles O51, by whether B's range contains the address. -/
theorem lastMappedWins : Obligations.LastMappedWins := by
  intro s devA devB startA lastA startB lastB a remapA remapB hstart hlast
  by_cases hB : startB.toNat ≤ a.toNat ∧ a.toNat ≤ lastB.toNat
  · exact ⟨_, by rw [resolve_mapRegion, if_pos hB], by simp [hB]⟩
  · exact ⟨_, by rw [resolve_mapRegion, if_neg hB, resolve_mapRegion, if_pos ⟨hstart, hlast⟩],
      by simp only [if_neg hB, and_self]⟩

end Sys2Proof.Proofs
end

section
/-! Three-register arithmetic, logic and comparison (40_alu_register.md R110 to R120). -/

namespace Sys2Proof.Machine

/-! ### The two ways an instruction with a destination ends -/

/-- A register write changes that register alone (R22). -/
theorem onlyReg_writeReg (s : State) (r : RegIdx) (v : Word) (hr : r ≠ 0#5) : OnlyReg s (s.writeReg r v) r v where
  result := State.readReg_writeReg_self s r v hr
  others q hq := State.readReg_writeReg_other s r q v hq
  pc := rfl
  hi := rfl
  lo := rfl
  status := rfl
  regions := rfl
  handles := rfl

/-- A fatal condition changes the run status alone (R260). -/
theorem onlyStatus_raise (s : State) (c : FatalCondition) : OnlyStatus s (s.raise c) (.fault c) where
  newStatus := rfl
  regs := rfl
  pc := rfl
  hi := rfl
  lo := rfl
  regions := rfl
  handles := rfl

/-- An instruction that makes the zero-destination test on field 0 stops there, whatever it would do next (R92,
R93). -/
theorem stopsWith_of_zeroTest {i : Instr} {s : State} {body : Result} (h : exec i s = zeroTest 0#5 i s body) :
    StopsWith i s (.zeroRegisterWrite (encode i)) :=
  ⟨_, h.trans (zeroTest_zero i s body), onlyStatus_raise s _⟩

/-- The result of an R-format instruction whose meaning is the test on `rd` and then one register write. -/
theorem RegResult.of_zeroTest {mk : RegIdx → RegIdx → RegIdx → Shamt → Instr} {f : Word → Word → Shamt → Word}
    (h : ∀ rs rt rd shamt s, exec (mk rs rt rd shamt) s = zeroTest rd (mk rs rt rd shamt) s
      (.next (s.writeReg rd (f (s.readReg rs) (s.readReg rt) shamt)))) : RegResult mk f := by
  intro rs rt rd shamt s
  constructor
  · intro hd
    exact ⟨_, (h rs rt rd shamt s).trans (zeroTest_pass _ _ _ _ hd), onlyReg_writeReg s rd _ hd⟩
  · rintro rfl
    exact ⟨_, stopsWith_of_zeroTest (h rs rt 0#5 shamt s)⟩

/-- The result of a three-register operation (R110), read through any other form `f` of what it computes. -/
theorem RegResult.of_regOp {mk : RegIdx → RegIdx → RegIdx → Shamt → Instr} {g : Word → Word → Word}
    {f : Word → Word → Shamt → Word} (hfg : ∀ a b shamt, g a b = f a b shamt)
    (h : ∀ rs rt rd shamt s, exec (mk rs rt rd shamt) s = regOp g (mk rs rt rd shamt) rs rt rd s) :
    RegResult mk f :=
  .of_zeroTest fun rs rt rd shamt s => by rw [h, regOp, hfg _ _ shamt]

/-! ### What the operations compute, on the numbers their operands stand for -/

theorem add_eq_ofNat_mod (a b : Word) : a + b = BitVec.ofNat 32 ((a.toNat + b.toNat) % 2 ^ 32) :=
  BitVec.eq_of_toNat_eq (by simp)

theorem sub_eq_ofInt_mod (a b : Word) : a - b = BitVec.ofInt 32 (((a.toNat : Int) - b.toNat) % 2 ^ 32) := by
  have ha := a.isLt
  have hb := b.isLt
  apply BitVec.eq_of_toNat_eq
  rw [BitVec.toNat_sub, BitVec.toNat_ofInt]
  omega

theorem boolWord_lessSigned (a b : Word) :
    boolWord (lessSigned a b) = if a.toInt < b.toInt then 1#32 else 0#32 := by
  simp [boolWord, lessSigned, BitVec.slt_iff_toInt_lt]

theorem boolWord_lessUnsigned (a b : Word) :
    boolWord (lessUnsigned a b) = if a.toNat < b.toNat then 1#32 else 0#32 := by
  simp [boolWord, lessUnsigned, BitVec.ult_iff_lt, BitVec.lt_def]

end Sys2Proof.Machine

namespace Sys2Proof.Proofs

open Sys2Proof Sys2Proof.Machine

/-- Settles O27: the machine's sum and difference are those of the unsigned readings modulo 2^32. -/
theorem addSubResults : Obligations.AddSubResults :=
  ⟨.of_regOp (fun a b _ => add_eq_ofNat_mod a b) fun _ _ _ _ _ => rfl,
   .of_regOp (fun a b _ => sub_eq_ofInt_mod a b) fun _ _ _ _ _ => rfl⟩

/-- Settles O29: each of the four is the three-register operation of its own bitwise function. -/
theorem logicResults : Obligations.LogicResults :=
  ⟨.of_regOp (g := fun a b => a &&& b) (fun _ _ _ => rfl) fun _ _ _ _ _ => rfl,
   .of_regOp (g := fun a b => a ||| b) (fun _ _ _ => rfl) fun _ _ _ _ _ => rfl,
   .of_regOp (g := fun a b => a ^^^ b) (fun _ _ _ => rfl) fun _ _ _ _ _ => rfl,
   .of_regOp (g := fun a b => ~~~(a ||| b)) (fun _ _ _ => rfl) fun _ _ _ _ _ => rfl⟩

/-- Settles O30: the comparison written as a word is 1 exactly where the readings compare. -/
theorem compareResults : Obligations.CompareResults :=
  ⟨.of_regOp (fun a b _ => boolWord_lessSigned a b) fun _ _ _ _ _ => rfl,
   .of_regOp (fun a b _ => boolWord_lessUnsigned a b) fun _ _ _ _ _ => rfl⟩

end Sys2Proof.Proofs
end

section
/-! Shifts by the immediate amount (41_shift.md R130 to R133). -/

namespace Sys2Proof.Machine

/-! ### What the shifts compute, on the numbers their operands stand for (R8) -/

theorem shiftLeft_eq_ofNat (v : Word) (n : Shamt) : shiftLeft v n = BitVec.ofNat 32 (v.toNat * 2 ^ n.toNat) :=
  BitVec.eq_of_toNat_eq (by rw [shiftLeft, BitVec.toNat_shiftLeft, Nat.shiftLeft_eq, BitVec.toNat_ofNat])

theorem shiftRightLogical_eq_ofNat (v : Word) (n : Shamt) :
    shiftRightLogical v n = BitVec.ofNat 32 (v.toNat / 2 ^ n.toNat) := by
  have hlt : v.toNat / 2 ^ n.toNat < 2 ^ 32 := (Nat.div_le_self _ _).trans_lt v.isLt
  apply BitVec.eq_of_toNat_eq
  rw [shiftRightLogical, BitVec.toNat_ushiftRight, Nat.shiftRight_eq_div_pow, BitVec.toNat_ofNat,
    Nat.mod_eq_of_lt hlt]

/-- `/` on integers rounds toward minus infinity here, the divisor being positive. -/
theorem shiftRightArith_eq_ofInt (v : Word) (n : Shamt) :
    shiftRightArith v n = BitVec.ofInt 32 (v.toInt / 2 ^ n.toNat) := by
  rw [shiftRightArith, BitVec.sshiftRight, Int.shiftRight_eq_div_pow, Nat.cast_pow, Nat.cast_ofNat]

/-- The result of an immediate shift (R130), read through any other form `g` of what it computes. -/
theorem RegResult.of_shiftImm {mk : RegIdx → RegIdx → RegIdx → Shamt → Instr} {f g : Word → Shamt → Word}
    (hfg : ∀ v n, f v n = g v n)
    (h : ∀ rs rt rd shamt s, exec (mk rs rt rd shamt) s = shiftImm f (mk rs rt rd shamt) rt rd shamt s) :
    RegResult mk fun _ b n => g b n :=
  .of_zeroTest fun rs rt rd shamt s => by rw [h, shiftImm, hfg]

end Sys2Proof.Machine

namespace Sys2Proof.Proofs

open Sys2Proof Sys2Proof.Machine

/-- Settles O31: each of the three is the immediate shift of its own operation, which is a product or a rounded
quotient by a power of two. -/
theorem immediateShiftResults : Obligations.ImmediateShiftResults :=
  ⟨.of_shiftImm shiftLeft_eq_ofNat fun _ _ _ _ _ => rfl,
   .of_shiftImm shiftRightLogical_eq_ofNat fun _ _ _ _ _ => rfl,
   .of_shiftImm shiftRightArith_eq_ofInt fun _ _ _ _ _ => rfl⟩

end Sys2Proof.Proofs
end

section
/-! Products in hi and lo, and the moves to and from hi and lo (42_muldiv_hilo.md R140 to R149). -/

namespace Sys2Proof.Machine

/-! ### The test on `rd` in front of each meaning (R140) -/

theorem exec_mult (rs rt rd : RegIdx) (shamt : Shamt) (s : State) :
    exec (.mult rs rt rd shamt) s = zeroTest rd (.mult rs rt rd shamt) s
      (.next (setProduct s (signedProduct (s.readReg rs) (s.readReg rt)))) := rfl

theorem exec_multu (rs rt rd : RegIdx) (shamt : Shamt) (s : State) :
    exec (.multu rs rt rd shamt) s = zeroTest rd (.multu rs rt rd shamt) s
      (.next (setProduct s (unsignedProduct (s.readReg rs) (s.readReg rt)))) := rfl

theorem exec_mfhi (rs rt rd : RegIdx) (shamt : Shamt) (s : State) :
    exec (.mfhi rs rt rd shamt) s = zeroTest rd (.mfhi rs rt rd shamt) s (.next (s.writeReg rd s.hi)) := rfl

theorem exec_mflo (rs rt rd : RegIdx) (shamt : Shamt) (s : State) :
    exec (.mflo rs rt rd shamt) s = zeroTest rd (.mflo rs rt rd shamt) s (.next (s.writeReg rd s.lo)) := rfl

theorem exec_mthi (rs rt rd : RegIdx) (shamt : Shamt) (s : State) :
    exec (.mthi rs rt rd shamt) s = zeroTest rd (.mthi rs rt rd shamt) s (.next (s.setHi (s.readReg rd))) := rfl

theorem exec_mtlo (rs rt rd : RegIdx) (shamt : Shamt) (s : State) :
    exec (.mtlo rs rt rd shamt) s = zeroTest rd (.mtlo rs rt rd shamt) s (.next (s.setLo (s.readReg rd))) := rfl

/-- An instruction that makes the test on another register than 0 goes on to its meaning (R92, R93). -/
theorem exec_past_zeroTest {i : Instr} {s : State} {field : RegIdx} {body : Result}
    (h : exec i s = zeroTest field i s body) (hf : field ≠ 0#5) : exec i s = body :=
  h.trans (zeroTest_pass field i s body hf)

/-! ### Writes of hi and lo -/

theorem onlyHiLo_setHi (s : State) (v : Word) : OnlyHiLo s (s.setHi v) v s.lo where
  newHi := rfl
  newLo := rfl
  regs := rfl
  pc := rfl
  status := rfl
  regions := rfl
  handles := rfl

theorem onlyHiLo_setLo (s : State) (v : Word) : OnlyHiLo s (s.setLo v) s.hi v where
  newHi := rfl
  newLo := rfl
  regs := rfl
  pc := rfl
  status := rfl
  regions := rfl
  handles := rfl

/-- The second of two writes of hi and lo decides both; what neither touches stays. -/
theorem OnlyHiLo.trans {s t u : State} {hi lo hi' lo' : Word} (h : OnlyHiLo s t hi lo)
    (h' : OnlyHiLo t u hi' lo') : OnlyHiLo s u hi' lo' where
  newHi := h'.newHi
  newLo := h'.newLo
  regs := h'.regs.trans h.regs
  pc := h'.pc.trans h.pc
  status := h'.status.trans h.status
  regions := h'.regions.trans h.regions
  handles := h'.handles.trans h.handles

/-- A product goes to hi and lo alone, its high half and its low half (R141, R142). -/
theorem onlyHiLo_setProduct (s : State) (p : BitVec 64) :
    OnlyHiLo s (setProduct s p) (p.extractLsb' 32 32) (p.extractLsb' 0 32) :=
  (onlyHiLo_setLo s _).trans (onlyHiLo_setHi _ _)

/-- An instruction whose meaning is the test on `rd` and then one product leaves that product in hi and lo. -/
theorem exec_setProduct {i : Instr} {s : State} {rd : RegIdx} {p : BitVec 64}
    (h : exec i s = zeroTest rd i s (.next (setProduct s p))) (hd : rd ≠ 0#5) :
    ∃ t hi lo, exec i s = .next t ∧ OnlyHiLo s t hi lo ∧ hi ++ lo = p :=
  ⟨_, _, _, exec_past_zeroTest h hd, onlyHiLo_setProduct s p, BitVec.extractLsb'_append_extractLsb'⟩

/-! ### No product of two words overflows 64 bits -/

/-- The product lies between -2^62 and 2^62, so its 64-bit two's-complement form is exact. -/
theorem signedProduct_toInt (a b : Word) : (signedProduct a b).toInt = a.toInt * b.toInt := by
  have hlow : -2 ^ 62 ≤ a.toInt * b.toInt := BitVec.le_toInt_mul_toInt
  have hhigh : a.toInt * b.toInt ≤ 2 ^ 62 := BitVec.toInt_mul_toInt_le
  exact BitVec.toInt_ofInt_eq_self (by decide) (by omega) (by omega)

theorem unsignedProduct_toNat (a b : Word) : (unsignedProduct a b).toNat = a.toNat * b.toNat :=
  Nat.mod_eq_of_lt BitVec.toNat_mul_toNat_lt

end Sys2Proof.Machine

namespace Sys2Proof.Proofs

open Sys2Proof Sys2Proof.Machine

/-- Settles O33: hi and lo are the halves of a 64-bit product, which is wide enough to be exact. -/
theorem multiplyResults : Obligations.MultiplyResults := by
  intro rs rt rd shamt s
  constructor
  · intro hd
    constructor
    · obtain ⟨t, hi, lo, hexec, honly, hprod⟩ := exec_setProduct (exec_mult rs rt rd shamt s) hd
      exact ⟨t, hi, lo, hexec, honly, by rw [hprod, signedProduct_toInt]⟩
    · obtain ⟨t, hi, lo, hexec, honly, hprod⟩ := exec_setProduct (exec_multu rs rt rd shamt s) hd
      exact ⟨t, hi, lo, hexec, honly, by rw [hprod, unsignedProduct_toNat]⟩
  · rintro rfl
    simp only [List.forall_mem_cons]
    exact ⟨⟨_, stopsWith_of_zeroTest (exec_mult rs rt 0#5 shamt s)⟩,
      ⟨_, stopsWith_of_zeroTest (exec_multu rs rt 0#5 shamt s)⟩, List.forall_mem_nil _⟩

/-- Settles O37: past the test on `rd`, each of the four is one write, of `x[rd]` or of one accumulator. -/
theorem hiLoMoves : Obligations.HiLoMoves := by
  intro rs rt rd shamt s
  constructor
  · intro hd
    exact ⟨⟨_, exec_past_zeroTest (exec_mfhi rs rt rd shamt s) hd, onlyReg_writeReg s rd _ hd⟩,
      ⟨_, exec_past_zeroTest (exec_mflo rs rt rd shamt s) hd, onlyReg_writeReg s rd _ hd⟩,
      ⟨_, exec_past_zeroTest (exec_mthi rs rt rd shamt s) hd, onlyHiLo_setHi s _⟩,
      ⟨_, exec_past_zeroTest (exec_mtlo rs rt rd shamt s) hd, onlyHiLo_setLo s _⟩⟩
  · rintro rfl
    simp only [List.forall_mem_cons]
    exact ⟨⟨_, stopsWith_of_zeroTest (exec_mfhi rs rt 0#5 shamt s)⟩,
      ⟨_, stopsWith_of_zeroTest (exec_mflo rs rt 0#5 shamt s)⟩,
      ⟨_, stopsWith_of_zeroTest (exec_mthi rs rt 0#5 shamt s)⟩,
      ⟨_, stopsWith_of_zeroTest (exec_mtlo rs rt 0#5 shamt s)⟩, List.forall_mem_nil _⟩

end Sys2Proof.Proofs
end

section
/-! Decoding and encoding undo each other, and which words are illegal (30_encoding.md R80 to R91). -/

namespace Sys2Proof

/-! ### The decoder on an encoded word, by format -/

/-- An R-format word is looked up in the function map R87. -/
theorem decodeWord_encodeR (f : BitVec 6) (rs rt rd : RegIdx) (sh : Shamt) :
    decodeWord (encodeR f rs rt rd sh) = decodeSpecial f rs rt rd sh := by
  simp [decodeWord]

/-- A word with op = 1 is looked up in the REGIMM map R89. -/
theorem decodeWord_encodeI_regimm (rs rt : BitVec 5) (imm : Imm) :
    decodeWord (encodeI 0x01#6 rs rt imm) = decodeRegimm rt rs imm := by
  simp [decodeWord]

theorem decodeWord_encode (i : Instr) : decodeWord (encode i) = .ok i := by
  cases i
  case bltz | bgez | bltzal | bgezal => exact decodeWord_encodeI_regimm _ _ _
  case beq | bne | blez | bgtz | addi | addiu | slti | sltiu | andi | ori | xori | lui | lb | lhw | lw | lbu | lhwu
      | sb | shw | sw => simp [encode, decodeWord]
  case j | jal | lwl | lwr | swl | swr | lwc0 | lwc1 | lwc2 | lwc3 | swc0 | swc1 | swc2 | swc3 | cop0 | cop1 | cop2
      | cop3 => simp [encode, decodeWord]
  all_goals exact decodeWord_encodeR _ _ _ _ _

/-- A word that is known to be the word of an instruction decodes to it. -/
theorem decodeWord_of_encode_eq {w : Word} {i : Instr} (h : encode i = w) : decodeWord w = .ok i :=
  h ▸ decodeWord_encode i

/-! ### The encoder on a decoded word -/

/-- By the primary opcode: the two maps of the second level, and the words whose fields are the instruction's. -/
theorem encode_of_decodeWord (w : Word) (i : Instr) (h : decodeWord w = .ok i) : encode i = w := by
  unfold decodeWord at h
  split at h
  case h_1 hop => exact (decodeSpecial_encode _ _ _ _ _ _ h).trans (encodeR_fields w hop)
  case h_2 hop => exact (decodeRegimm_encode _ _ _ _ h).trans (hop ▸ encodeI_fields w)
  all_goals cases h
  all_goals simp only [encode, ← ‹fieldOp w = _›, encodeI_fields, encodeJ_fields]

/-! ### The words that decode to nothing, by the map that marks them illegal -/

/-- The functions that R87 marks illegal. -/
theorem decodeSpecial_error_iff (f : BitVec 6) (rs rt rd : RegIdx) (sh : Shamt) :
    (∃ e, decodeSpecial f rs rt rd sh = .error e) ↔
      f.toNat ∈ [0x01, 0x05, 0x0A, 0x0B, 0x0D, 0x0E, 0x0F] ++ List.range' 0x14 4 ++ List.range' 0x1C 4 ++
        [0x28, 0x29] ++ List.range' 0x2C 20 := by
  obtain ⟨⟨f, hf⟩⟩ := f
  interval_cases f <;> simp [decodeSpecial]

/-- The REGIMM codes that R89 marks illegal. -/
theorem decodeRegimm_error_iff (rt : BitVec 5) (rs : RegIdx) (imm : Imm) :
    (∃ e, decodeRegimm rt rs imm = .error e) ↔ rt.toNat ∈ List.range' 0x02 14 ++ List.range' 0x12 14 := by
  obtain ⟨⟨k, hk⟩⟩ := rt
  interval_cases k <;> simp [decodeRegimm]

/-- The three ways to be illegal, by the primary opcode. -/
theorem decodeWord_error_iff (w : Word) :
    (∃ e, decodeWord w = .error e) ↔
      ((fieldOp w).toNat ∈
        List.range' 0x14 12 ++ [0x27, 0x2C, 0x2D, 0x2F] ++ List.range' 0x34 4 ++ List.range' 0x3C 4) ∨
      (fieldOp w = 0#6 ∧
        ∃ e, decodeSpecial (fieldFunct w) (fieldRs w) (fieldRt w) (fieldRd w) (fieldShamt w) = .error e) ∨
      (fieldOp w = 1#6 ∧ ∃ e, decodeRegimm (fieldRt w) (fieldRs w) (fieldImm w) = .error e) := by
  unfold decodeWord
  generalize fieldOp w = op
  obtain ⟨⟨op, hop⟩⟩ := op
  interval_cases op <;> simp

/-! ### A word given as bytes -/

/-- A word is what its own number, cut to 32 bits, stands for. -/
theorem ofNat_toNat_mod (w : Word) : BitVec.ofNat 32 (w.toNat % 2 ^ 32) = w := by
  rw [Nat.mod_eq_of_lt w.isLt, BitVec.ofNat_toNat, BitVec.setWidth_eq]

/-- A table word decodes exactly as the word does. -/
theorem decodeTableWord_eq_some_iff (w : Word) (i : Instr) :
    decodeTableWord 32 w.toNat = some i ↔ decodeWord w = .ok i := by
  unfold decodeTableWord
  rw [ofNat_toNat_mod, decodeBytes_splitBytes]
  cases decodeWord w <;> simp

end Sys2Proof

namespace Sys2Proof.Proofs

open Sys2Proof

/-- Settles O1, by the format of the instruction. -/
theorem decodeOfEncode : Obligations.DecodeOfEncode := decodeWord_encode

/-- Settles O2, by the primary opcode of the word. -/
theorem encodeOfDecode : Obligations.EncodeOfDecode := encode_of_decodeWord

/-- Settles O3: each of the three maps marks illegal the codes listed for it. -/
theorem illegalWordsAreThoseListed : Obligations.IllegalWordsAreThoseListed := by
  intro w
  rw [decodeWord_error_iff, decodeSpecial_error_iff, decodeRegimm_error_iff]

/-- Settles O4: each of the eight is the word of its instruction. -/
theorem specWordsDecode : Obligations.SpecWordsDecode :=
  ⟨decodeWord_of_encode_eq rfl, decodeWord_of_encode_eq rfl, decodeWord_of_encode_eq rfl,
   decodeWord_of_encode_eq rfl, decodeWord_of_encode_eq rfl, decodeWord_of_encode_eq rfl,
   decodeWord_of_encode_eq rfl, decodeWord_of_encode_eq rfl⟩

/-- Settles O5: the bytes of a word assemble to the word. -/
theorem tableWordDecodesAsWord : Obligations.TableWordDecodesAsWord := decodeTableWord_eq_some_iff

end Sys2Proof.Proofs
end

section
/-! The Memory Mapper: which region answers, what an access leaves in the table, what a byte of memory reads as
(20_memory.md R40, R47 to R54). -/

namespace Sys2Proof.Machine

/-! ### Resolution and translation -/

/-- Regions in front that do not cover the address do not count (R51). -/
theorem resolve_append_of_not_covers {front : List Region} {a : Word} (h : ∀ q ∈ front, q.covers a = false)
    (rs : List Region) : resolve (front ++ rs) a = resolve rs a := by
  induction front with
  | nil => rfl
  | cons q front ih =>
    obtain ⟨hq, hfront⟩ := List.forall_mem_cons.1 h
    rw [List.cons_append, resolve_cons, hq, if_neg Bool.false_ne_true, ih hfront]

/-- The region that answers is the first, in current order, whose range contains the address (R51). -/
theorem resolve_eq_some_iff (rs : List Region) (a : Word) (r : Region) :
    resolve rs a = some r ↔
      ∃ front back, rs = front ++ r :: back ∧ r.covers a = true ∧ ∀ q ∈ front, q.covers a = false := by
  constructor
  · intro h
    obtain ⟨front, back, hrs, hfront, -⟩ := access_mapped rs a (.read .byte) r h
    exact ⟨front, back, hrs, (resolve_some rs a r h).2, hfront⟩
  · rintro ⟨front, back, rfl, hr, hfront⟩
    rw [resolve_append_of_not_covers hfront, resolve_cons, if_pos hr]

/-- A remapped region that covers the address gives its device the distance from its start, which is never
negative (R52). -/
theorem Region.translate_remap {r : Region} {a : Word} (hr : r.covers a = true) (hm : r.remap = true) :
    (r.translate a).toNat = a.toNat - r.start.toNat := by
  obtain ⟨hstart, -⟩ := (r.covers_iff a).1 hr
  rw [Region.translate, if_pos hm, BitVec.toNat_sub_of_le (BitVec.le_def.2 hstart)]

/-- Any other region gives its device the global address (R52). -/
theorem Region.translate_no_remap {r : Region} {a : Word} (hm : r.remap = false) : r.translate a = a := by
  rw [Region.translate, hm, if_neg Bool.false_ne_true]

/-! ### Accesses -/

/-- The operation goes to the first region that covers the address, and only its device changes (R53, R54). -/
theorem access_at {front : List Region} {r : Region} {a : Word} (hfront : ∀ q ∈ front, q.covers a = false)
    (hr : r.covers a = true) (back : List Region) (op : Word → DeviceOp) :
    access (front ++ r :: back) a op =
      (passOn (op (r.translate a)) (r.device.perform (op (r.translate a))).1,
       front ++ { r with device := (r.device.perform (op (r.translate a))).2 } :: back) := by
  induction front with
  | nil => simp [access, hr]
  | cons q front ih =>
    obtain ⟨hq, hfront⟩ := List.forall_mem_cons.1 hfront
    simp [access, hq, ih hfront]

/-- An operation that leaves its device as it was leaves the whole table as it was. -/
theorem access_of_device_unchanged {rs : List Region} {a : Word} {r : Region} (h : resolve rs a = some r)
    (op : Word → DeviceOp) (hdev : (r.device.perform (op (r.translate a))).2 = r.device) :
    access rs a op = (passOn (op (r.translate a)) (r.device.perform (op (r.translate a))).1, rs) := by
  obtain ⟨front, back, hrs, -, haccess⟩ := access_mapped rs a op r h
  rw [haccess, hdev, ← hrs]

/-- An access that does not end inside the Memory Device: `OutOfBounds` and no change, also of a write (R47). -/
theorem access_outOfBounds {rs : List Region} {a : Word} {r : Region} {d : MemoryDevice} {n : Width}
    {op : Word → DeviceOp} (h : resolve rs a = some r) (hd : r.device = .memory d)
    (hsize : d.size < (r.translate a).toNat + n.bytes)
    (hop : op (r.translate a) = .read n (r.translate a) ∨
      ∃ data, op (r.translate a) = .write n (r.translate a) data) :
    access rs a op = (.error (.outOfBounds (r.translate a)), rs) := by
  have hout : ¬ d.inBounds n (r.translate a) := Nat.not_le.2 hsize
  have hperform : r.device.perform (op (r.translate a)) = (.error .outOfBounds, r.device) := by
    rcases hop with hop | ⟨data, hop⟩ <;>
      simp [hop, hd, Device.perform, MemoryDevice.perform, MemoryDevice.read, MemoryDevice.write, hout]
  rw [access_of_device_unchanged h op (by rw [hperform]), hperform]
  rcases hop with hop | ⟨data, hop⟩ <;> rw [hop] <;> rfl

/-- An access to any other device is one operation added to its history, whatever it answers (R42, R54). -/
theorem access_other {front : List Region} {r : Region} {a : Word} {id : Nat} {history : List DeviceOp}
    (hfront : ∀ q ∈ front, q.covers a = false) (hr : r.covers a = true) (hd : r.device = .other id history)
    (back : List Region) (op : Word → DeviceOp) :
    access (front ++ r :: back) a op =
      (passOn (op (r.translate a)) (otherAnswer id history (op (r.translate a))),
       front ++ { r with device := .other id (history ++ [op (r.translate a)]) } :: back) := by
  rw [access_at hfront hr, hd]
  rfl

/-- A condition that an access raises is `UnmappedAddress` or a device's signal (R53). -/
theorem access_error_cases {rs : List Region} {a : Word} {op : Word → DeviceOp} {c : FatalCondition}
    (h : (access rs a op).1 = .error c) : c = .unmappedAddress a ∨ ∃ o e, c = signalCondition o e := by
  cases hr : resolve rs a with
  | none =>
    rw [access_unmapped rs a op hr] at h
    exact .inl (Except.error.inj h).symm
  | some r =>
    obtain ⟨_, _, -, -, haccess⟩ := access_mapped rs a op r hr
    rw [haccess] at h
    simp only [passOn] at h
    split at h
    · cases h
    · exact .inr ⟨_, _, (Except.error.inj h).symm⟩

/-! ### The byte a global address reads as -/

/-- What a device shows of one device-local address: the byte of a Memory Device, nothing of any other. -/
def Device.byteAt : Device → Nat → Option Byte
  | .memory d, k => if k < d.size then some (d.mem.read k) else none
  | .other _ _, _ => none

theorem peekByte_eq (rs : List Region) (a : Word) :
    peekByte rs a = (resolve rs a).bind fun r => r.device.byteAt (r.translate a).toNat := by
  unfold peekByte
  cases resolve rs a with
  | none => rfl
  | some r =>
    cases h : r.device <;> simp [h, Device.byteAt]

/-- Replacing a region's device by one that shows the same where the region gives it this address. -/
theorem peekByte_replace {r : Region} {dev : Device} {a : Word} (front back : List Region)
    (h : r.covers a = true → dev.byteAt (r.translate a).toNat = r.device.byteAt (r.translate a).toNat) :
    peekByte (front ++ { r with device := dev } :: back) a = peekByte (front ++ r :: back) a := by
  have hnew := resolve_replace front back r dev a
  have hold := resolve_replace front back r r.device a
  rw [peekByte_eq, peekByte_eq, hnew, hold]
  cases resolve front a with
  | some q => rfl
  | none =>
    by_cases hr : r.covers a = true
    · simp [hr, h hr]
    · simp [hr]

/-- A read changes no byte of any device (R45). -/
theorem Device.byteAt_perform_read (dev : Device) (n : Width) (l : Word) :
    (dev.perform (.read n l)).2.byteAt = dev.byteAt := by
  cases dev <;> rfl

/-- An operation that signals changes no byte of any device (R47, R260). -/
theorem Device.byteAt_perform_error {dev : Device} {op : DeviceOp} {e : DeviceSignal}
    (h : (dev.perform op).1 = .error e) : (dev.perform op).2.byteAt = dev.byteAt := by
  cases dev with
  | other => rfl
  | memory d =>
    cases op with
    | read => rfl
    | write n l data =>
      rcases d.write_cases n l data with ⟨-, hw⟩ | ⟨-, hw⟩
      · simp [Device.perform, MemoryDevice.perform, hw] at h
      · simp [Device.perform, MemoryDevice.perform, hw]

/-- An access whose operation changes no byte of its device changes no byte of memory. -/
theorem peekByte_access {rs : List Region} {b : Word} {op : Word → DeviceOp}
    (h : ∀ r, resolve rs b = some r → (r.device.perform (op (r.translate b))).2.byteAt = r.device.byteAt)
    (a : Word) : peekByte (access rs b op).2 a = peekByte rs a := by
  rcases access_regions rs b op with hsame | ⟨front, r, back, rfl, hr, hreplaced⟩
  · rw [hsame]
  · rw [hreplaced]
    exact peekByte_replace front back fun _ => by rw [h r hr]

/-- An access that raises a condition changes no byte of memory (R53, R260). -/
theorem peekByte_access_error {rs : List Region} {b : Word} {op : Word → DeviceOp} {c : FatalCondition}
    (h : (access rs b op).1 = .error c) (a : Word) : peekByte (access rs b op).2 a = peekByte rs a := by
  refine peekByte_access (fun r hr => ?_) a
  obtain ⟨_, _, -, -, haccess⟩ := access_mapped rs b op r hr
  rw [haccess] at h
  cases hanswer : (r.device.perform (op (r.translate b))).1 with
  | ok bs => simp [passOn, hanswer] at h
  | error e => exact Device.byteAt_perform_error hanswer

/-! ### Map and unmap -/

/-- Mapping a device in canonical form keeps the invariant: the new region's handle is above every other. -/
theorem State.mapRegion_wf {s : State} {dev : Device} (hs : s.wf) (hdev : dev.wf) (start last : Word)
    (remap : Bool) : (s.mapRegion dev start last remap).2.wf := by
  obtain ⟨hzero, hdevices, hdistinct, hbelow⟩ := hs
  refine ⟨hzero, List.forall_mem_cons.2 ⟨hdev, hdevices⟩, List.pairwise_cons.2 ⟨fun q hq => ?_, hdistinct⟩,
    List.forall_mem_cons.2 ⟨Nat.lt_succ_self _, fun q hq => ?_⟩⟩
  · exact (hbelow q hq).ne'
  · exact Nat.lt_succ_of_lt (hbelow q hq)

/-- Where handles are distinct, filtering by the handle of one region takes out that region alone. -/
theorem filter_handle_ne {front back : List Region} {r : Region}
    (h : (front ++ r :: back).Pairwise fun r q => r.handle ≠ q.handle) :
    (front ++ r :: back).filter (fun q => q.handle != r.handle) = front ++ back := by
  obtain ⟨-, hback, hcross⟩ := List.pairwise_append.1 h
  obtain ⟨hr, -⟩ := List.pairwise_cons.1 hback
  have hkeepFront : front.filter (fun q => q.handle != r.handle) = front :=
    List.filter_eq_self.2 fun q hq => bne_iff_ne.2 (hcross q hq r List.mem_cons_self)
  have hkeepBack : back.filter (fun q => q.handle != r.handle) = back :=
    List.filter_eq_self.2 fun q hq => bne_iff_ne.2 (hr q hq).symm
  rw [List.filter_append, hkeepFront, List.filter_cons_of_neg (by simp), hkeepBack]

/-- Unmapping the handle of a region of the table takes out that region alone (R50). -/
theorem State.unmapRegion_of_split {s : State} {front back : List Region} {r : Region} (hs : s.wf)
    (h : s.regions = front ++ r :: back) : s.unmapRegion r.handle = some (s.setRegions (front ++ back)) := by
  obtain ⟨-, -, hdistinct, -⟩ := hs
  rw [h] at hdistinct
  have hany : (front ++ r :: back).any (fun q => q.handle == r.handle) = true :=
    List.any_eq_true.2 ⟨r, by simp, beq_self_eq_true _⟩
  rw [State.unmapRegion, h, if_pos hany, filter_handle_ne hdistinct]
  rfl

/-- Taking regions out of the table keeps the invariant. -/
theorem State.setRegions_wf_of_sublist {s : State} {rs : List Region} (hs : s.wf) (h : rs.Sublist s.regions) :
    (s.setRegions rs).wf := by
  obtain ⟨hzero, hdevices, hdistinct, hbelow⟩ := hs
  exact ⟨hzero, fun r hr => hdevices r (h.subset hr), hdistinct.sublist h, fun r hr => hbelow r (h.subset hr)⟩

theorem onlyRegions_setRegions (s : State) (rs : List Region) : OnlyRegions s (s.setRegions rs) rs where
  newRegions := rfl
  regs := rfl
  pc := rfl
  hi := rfl
  lo := rfl
  status := rfl
  handles := rfl

end Sys2Proof.Machine

namespace Sys2Proof.Proofs

open Sys2Proof Sys2Proof.Machine

/-- Settles O50: the three claims are those about resolving, about an access that resolves to nothing, and about
translating. -/
theorem firstCoveringRegionWins : Obligations.FirstCoveringRegionWins := by
  intro rs a
  simp only [← Region.covers_iff, Bool.not_eq_true]
  refine ⟨resolve_eq_some_iff rs a, fun hnone op => ?_, fun r hr => ⟨fun hm => ?_, Region.translate_no_remap⟩⟩
  · exact access_unmapped rs a op (resolve_none_of_forall rs a hnone)
  · have hcovers := (resolve_some rs a r hr).2
    obtain ⟨hstart, -⟩ := (r.covers_iff a).1 hcovers
    rw [Region.translate_remap hcovers hm, Nat.sub_add_cancel hstart]

/-- Settles O52: handles are distinct, so one handle names one region, wherever it stands. -/
theorem unmapUncovers : Obligations.UnmapUncovers := by
  constructor
  · intro s r front back hs h
    refine ⟨_, State.unmapRegion_of_split hs h, onlyRegions_setRegions s _, ?_, fun a hfront => ?_⟩
    · exact State.setRegions_wf_of_sublist hs (h ▸ (List.sublist_cons_self r back).append_left front)
    · exact resolve_append_of_not_covers hfront back
  · intro s dev start last remap hs hdev
    have hwf := State.mapRegion_wf hs hdev start last remap
    have hregions := State.mapRegion_regions s dev start last remap
    exact ⟨hwf, _, State.unmapRegion_of_split (front := []) hwf hregions, rfl⟩

end Sys2Proof.Proofs
end

section
/-! MemRead and MemWrite through every outcome of an access, the fetch, and the step (20_memory.md R42 to R57,
70_reset_and_hazards.md R284). -/

namespace Sys2Proof.Machine

/-! ### MemRead and MemWrite from the answer of the access -/

theorem memRead_of_access_ok {s : State} {n : Width} {a : Word} {bs : List Byte} {rs : List Region}
    (h : access s.regions a (.read n) = (.ok bs, rs)) :
    memRead s n a = (.ok (assembleBytes bs), s.setRegions rs) := by
  simp only [memRead, h]

theorem memRead_of_access_error {s : State} {n : Width} {a : Word} {c : FatalCondition} {rs : List Region}
    (h : access s.regions a (.read n) = (.error c, rs)) : memRead s n a = (.error c, s.setRegions rs) := by
  simp only [memRead, h]

theorem memWrite_of_access_ok {s : State} {n : Width} {a v : Word} {bs : List Byte} {rs : List Region}
    (h : (access s.regions a fun l => .write n l (splitBytes n v)) = (.ok bs, rs)) :
    memWrite s n a v = (none, s.setRegions rs) := by
  simp only [memWrite, h]

theorem memWrite_of_access_error {s : State} {n : Width} {a v : Word} {c : FatalCondition} {rs : List Region}
    (h : (access s.regions a fun l => .write n l (splitBytes n v)) = (.error c, rs)) :
    memWrite s n a v = (some c, s.setRegions rs) := by
  simp only [memWrite, h]

/-- A condition that MemRead raises is one of its access. -/
theorem memRead_eq_error {s s' : State} {n : Width} {a : Word} {c : FatalCondition}
    (h : memRead s n a = (.error c, s')) : (access s.regions a (.read n)).1 = .error c := by
  cases haccess : (access s.regions a (.read n)).1 with
  | ok bs => simp [memRead, haccess] at h
  | error c' => simpa [memRead, haccess] using congrArg Prod.fst h

/-- A condition that MemWrite raises is one of its access. -/
theorem memWrite_eq_some {s s' : State} {n : Width} {a v : Word} {c : FatalCondition}
    (h : memWrite s n a v = (some c, s')) :
    (access s.regions a fun l => .write n l (splitBytes n v)).1 = .error c := by
  cases haccess : (access s.regions a fun l => .write n l (splitBytes n v)).1 with
  | ok bs => simp [memWrite, haccess] at h
  | error c' => simpa [memWrite, haccess] using congrArg Prod.fst h

/-! ### What they leave unchanged -/

/-- MemRead changes the region table at most (R55). -/
theorem memRead_onlyRegions {s s' : State} {n : Width} {a : Word} {x : Except FatalCondition Word}
    (h : memRead s n a = (x, s')) : OnlyRegions s s' (access s.regions a (.read n)).2 := by
  obtain rfl : (memRead s n a).2 = s' := by rw [h]
  exact onlyRegions_setRegions s _

/-- MemWrite changes the region table at most (R56). -/
theorem memWrite_onlyRegions {s s' : State} {n : Width} {a v : Word} {x : Option FatalCondition}
    (h : memWrite s n a v = (x, s')) :
    OnlyRegions s s' (access s.regions a fun l => .write n l (splitBytes n v)).2 := by
  obtain rfl : (memWrite s n a v).2 = s' := by rw [h]
  exact onlyRegions_setRegions s _

/-- MemRead changes no byte of memory (R45). -/
theorem peekByte_memRead {s s' : State} {n : Width} {b : Word} {x : Except FatalCondition Word}
    (h : memRead s n b = (x, s')) (a : Word) : peekByte s'.regions a = peekByte s.regions a := by
  rw [(memRead_onlyRegions h).newRegions]
  exact peekByte_access (fun r _ => Device.byteAt_perform_read r.device n _) a

/-- A MemWrite that raises a condition changes no byte of memory (R47, R260). -/
theorem peekByte_memWrite_error {s s' : State} {n : Width} {b v : Word} {c : FatalCondition}
    (h : memWrite s n b v = (some c, s')) (a : Word) : peekByte s'.regions a = peekByte s.regions a := by
  rw [(memWrite_onlyRegions h).newRegions]
  exact peekByte_access_error (memWrite_eq_some h) a

/-! ### By what the address resolves to -/

theorem memRead_unmapped {s : State} {a : Word} (h : resolve s.regions a = none) (n : Width) :
    memRead s n a = (.error (.unmappedAddress a), s) :=
  memRead_of_access_error (access_unmapped s.regions a _ h)

theorem memWrite_unmapped {s : State} {a : Word} (h : resolve s.regions a = none) (n : Width) (v : Word) :
    memWrite s n a v = (some (.unmappedAddress a), s) :=
  memWrite_of_access_error (access_unmapped s.regions a _ h)

theorem memRead_outOfBounds {s : State} {a : Word} {r : Region} {d : MemoryDevice} {n : Width}
    (h : resolve s.regions a = some r) (hd : r.device = .memory d)
    (hsize : d.size < (r.translate a).toNat + n.bytes) : memRead s n a = (.error (.outOfBounds (r.translate a)), s) :=
  memRead_of_access_error (access_outOfBounds h hd hsize (.inl rfl))

theorem memWrite_outOfBounds {s : State} {a : Word} {r : Region} {d : MemoryDevice} {n : Width}
    (h : resolve s.regions a = some r) (hd : r.device = .memory d)
    (hsize : d.size < (r.translate a).toNat + n.bytes) (v : Word) : memWrite s n a v = (some (.outOfBounds (r.translate a)), s) :=
  memWrite_of_access_error (access_outOfBounds h hd hsize (.inr ⟨_, rfl⟩))

section OtherDevice

variable {s : State} {r : Region} {a : Word} {id : Nat} {history : List DeviceOp} {front back : List Region}
  {n : Width}

/-- MemRead of any other device that answers (R42, R53). -/
theorem memRead_other_ok (h : s.regions = front ++ r :: back) (hd : r.device = .other id history)
    (hfront : ∀ q ∈ front, q.covers a = false) (hr : r.covers a = true) {bs : List Byte}
    (hanswer : otherAnswer id history (.read n (r.translate a)) = .ok bs) :
    memRead s n a = (.ok (assembleBytes bs), s.setRegions
      (front ++ { r with device := .other id (history ++ [.read n (r.translate a)]) } :: back)) :=
  memRead_of_access_ok (by rw [h, access_other hfront hr hd, hanswer]; rfl)

/-- MemRead of any other device that signals (R42, R53). -/
theorem memRead_other_error (h : s.regions = front ++ r :: back) (hd : r.device = .other id history)
    (hfront : ∀ q ∈ front, q.covers a = false) (hr : r.covers a = true) {e : DeviceSignal}
    (hanswer : otherAnswer id history (.read n (r.translate a)) = .error e) :
    memRead s n a = (.error (signalCondition (.read n (r.translate a)) e), s.setRegions
      (front ++ { r with device := .other id (history ++ [.read n (r.translate a)]) } :: back)) :=
  memRead_of_access_error (by rw [h, access_other hfront hr hd, hanswer]; rfl)

/-- MemWrite of any other device that accepts it (R42, R53). -/
theorem memWrite_other_ok (h : s.regions = front ++ r :: back) (hd : r.device = .other id history)
    (hfront : ∀ q ∈ front, q.covers a = false) (hr : r.covers a = true) {v : Word} {bs : List Byte}
    (hanswer : otherAnswer id history (.write n (r.translate a) (splitBytes n v)) = .ok bs) :
    memWrite s n a v = (none, s.setRegions
      (front ++ { r with device := .other id (history ++ [.write n (r.translate a) (splitBytes n v)]) } :: back)) :=
  memWrite_of_access_ok (by rw [h, access_other hfront hr hd, hanswer]; rfl)

/-- MemWrite of any other device that signals (R42, R53). -/
theorem memWrite_other_error (h : s.regions = front ++ r :: back) (hd : r.device = .other id history)
    (hfront : ∀ q ∈ front, q.covers a = false) (hr : r.covers a = true) {v : Word} {e : DeviceSignal}
    (hanswer : otherAnswer id history (.write n (r.translate a) (splitBytes n v)) = .error e) :
    memWrite s n a v = (some (signalCondition (.write n (r.translate a) (splitBytes n v)) e), s.setRegions
      (front ++ { r with device := .other id (history ++ [.write n (r.translate a) (splitBytes n v)]) } :: back)) :=
  memWrite_of_access_error (by rw [h, access_other hfront hr hd, hanswer]; rfl)

end OtherDevice

/-- A read that any other device answers has as many bytes as its width (R41). -/
theorem otherAnswer_read_length {id : Nat} {history : List DeviceOp} {n : Width} {l : Word} {bs : List Byte}
    (h : otherAnswer id history (.read n l) = .ok bs) : bs.length = n.bytes := by
  unfold otherAnswer at h
  split at h
  · cases h
  · cases h
    simp

/-! ### The fetch -/

/-- A fetch from a Memory Device: the four bytes at pc, the first most significant, and no change. -/
theorem fetch_reaches {s : State} {r : Region} {d : MemoryDevice} (h : Reaches s .word s.pc r d) :
    fetch s =
      (.ok (byteAfter r d s.pc 0 ++ byteAfter r d s.pc 1 ++ byteAfter r d s.pc 2 ++ byteAfter r d s.pc 3), s) := by
  have hbytes : d.mem.readBytes (r.translate s.pc).toNat Width.word.bytes =
      [byteAfter r d s.pc 0, byteAfter r d s.pc 1, byteAfter r d s.pc 2, byteAfter r d s.pc 3] := rfl
  rw [fetch, memRead_reaches s .word s.pc r d h, hbytes, assemble_four]

/-- A fetch from any other device: what it answers to one read of a word, and its history one longer. -/
theorem fetch_other {s : State} {r : Region} {id : Nat} {history : List DeviceOp} {front back : List Region}
    (h : s.regions = front ++ r :: back) (hd : r.device = .other id history)
    (hfront : ∀ q ∈ front, q.covers s.pc = false) (hr : r.covers s.pc = true) (l : Word)
    (hl : l = r.translate s.pc) :
    ∃ u, OnlyRegions s u (front ++ { r with device := .other id (history ++ [.read .word l]) } :: back) ∧
      match otherAnswer id history (.read .word l) with
      | .error .outOfBounds => fetch s = (.error (.outOfBounds l), u)
      | .error .unsupportedOperation => fetch s = (.error (.unsupportedOperation .getWord l), u)
      | .ok bs => ∃ b0 b1 b2 b3, bs = [b0, b1, b2, b3] ∧ fetch s = (.ok (b0 ++ b1 ++ b2 ++ b3), u) := by
  subst hl
  refine ⟨_, onlyRegions_setRegions s _, ?_⟩
  cases hanswer : otherAnswer id history (.read .word (r.translate s.pc)) with
  | error e => cases e <;> exact memRead_other_error h hd hfront hr hanswer
  | ok bs =>
    obtain ⟨b0, b1, b2, b3, rfl⟩ := List.length_eq_four.1 (otherAnswer_read_length hanswer)
    exact ⟨b0, b1, b2, b3, rfl, by rw [fetch, memRead_other_ok h hd hfront hr hanswer, assemble_four]⟩

/-! ### The step, by what the fetch answers -/

/-- A fetch that raises a condition: the step stops with it, where the fetch left the machine. -/
theorem step_of_fetch_error {s s' : State} {c : FatalCondition} (hs : s.status = .running)
    (h : fetch s = (.error c, s')) : step s = .next (s'.raise c) := by
  simp only [step, hs, h]

/-- A word that decodes: pc is advanced, then the instruction runs (R24). -/
theorem step_of_decode_ok {s s' : State} {w : Word} {i : Instr} (hs : s.status = .running)
    (h : fetch s = (.ok w, s')) (hi : decodeWord w = .ok i) : step s = exec i (s'.setPc (s.pc + 4#32)) := by
  simp only [step, hs, h, hi, (memRead_onlyRegions h).pc]

/-- A word that decodes to nothing: pc is advanced, then the machine stops (R251). -/
theorem step_of_decode_error {s s' : State} {w : Word} {e : DecodeError} (hs : s.status = .running)
    (h : fetch s = (.ok w, s')) (he : decodeWord w = .error e) :
    step s = .next ((s'.setPc (s.pc + 4#32)).raise (.illegalInstruction w)) := by
  simp only [step, hs, h, he, (memRead_onlyRegions h).pc]

end Sys2Proof.Machine

namespace Sys2Proof.Proofs

open Sys2Proof Sys2Proof.Machine

/-- Settles O59: MemRead of a word, by what pc resolves to. -/
theorem fetchResults : Obligations.FetchResults := by
  intro s
  exact ⟨fun r d => fetch_reaches, fun r d => memRead_outOfBounds (n := .word), fun h => memRead_unmapped h .word,
    fun r id history front back => fetch_other⟩

/-- Settles O6: a fetch changes the region table at most, so pc is still where it was. -/
theorem stepRunsTheDecodedInstruction : Obligations.StepRunsTheDecodedInstruction := by
  intro s s' w i hs h hi
  have hfetch := memRead_onlyRegions h
  exact ⟨hfetch.newRegions ▸ hfetch, step_of_decode_ok hs h hi⟩

/-- Settles O7: the fetch answers the four bytes and changes nothing. -/
theorem stepRunsTheBytesAtPc : Obligations.StepRunsTheBytesAtPc := by
  intro s r d i hs h hi
  exact step_of_decode_ok hs (fetch_reaches h) hi

/-- Settles O8: past the fetch, the step raises the condition and nothing else. -/
theorem illegalWordStops : Obligations.IllegalWordStops := by
  intro s s' w e hs h he
  exact ⟨_, step_of_decode_error hs h he, onlyStatus_raise _ _⟩

/-- Settles O9: the step stops where the fetch left the machine, and a fetch is a read. -/
theorem failedFetchLeavesPc : Obligations.FailedFetchLeavesPc := by
  refine ⟨fun s s' c hs h => ?_, fun s hs h => ?_, fun s r d hs h hd hsize => ?_,
    fun s r id history front back hs h hd hfront hr l hl => ?_⟩
  · have hfetch := memRead_onlyRegions h
    have hpeek := peekByte_memRead h
    exact ⟨_, step_of_fetch_error hs h, rfl, hfetch.pc, hfetch.regs, hfetch.hi, hfetch.lo, hfetch.handles,
      (congrArg topology hfetch.newRegions).trans (access_topology _ _ _), hpeek⟩
  · exact ⟨_, step_of_fetch_error hs (memRead_unmapped h .word), onlyStatus_raise s _⟩
  · exact ⟨_, step_of_fetch_error hs (memRead_outOfBounds h hd hsize), onlyStatus_raise s _⟩
  · obtain ⟨u, hu, hanswer⟩ := fetch_other h hd hfront hr l hl
    refine ⟨u, hu, ?_⟩
    revert hanswer
    cases otherAnswer id history (.read .word l) with
    | error e => cases e <;> exact fun hfetch => ⟨_, step_of_fetch_error hs hfetch, onlyStatus_raise u _⟩
    | ok bs => exact fun ⟨_, _, _, _, _, hfetch⟩ => ⟨_, hfetch⟩

/-- Settles O10: every next state of a step comes from a running machine. -/
theorem stoppedMachineTakesNoStep : Obligations.StoppedMachineTakesNoStep :=
  fun s hs t h => hs (step_cases s t h).1

end Sys2Proof.Proofs
end

section
/-! What holds of every instruction, every step and every run (10_state.md R20 to R29, 60_exceptions.md R250 to
R261, 70_reset_and_hazards.md R280 to R290). -/

namespace Sys2Proof.Machine

/-! ### What every step keeps -/

/-- What no step changes: slot 0 of the register file, the topology of memory and the next handle (R22, R49, R70);
and devices in canonical form stay so. -/
structure Keeps (s t : State) : Prop where
  slotZero : t.regs[0] = s.regs[0]
  topology : topology t.regions = topology s.regions
  devices : (∀ r ∈ s.regions, r.device.wf) → ∀ r ∈ t.regions, r.device.wf
  handles : t.nextHandle = s.nextHandle

/-- Where the region table is untouched, only slot 0 and the next handle are left to look at. -/
theorem Keeps.of_regions_eq {s t : State} (hzero : t.regs[0] = s.regs[0]) (hregions : t.regions = s.regions)
    (hhandles : t.nextHandle = s.nextHandle) : Keeps s t :=
  ⟨hzero, by rw [hregions], by rw [hregions]; exact id, hhandles⟩

theorem Keeps.refl (s : State) : Keeps s s := .of_regions_eq rfl rfl rfl

theorem Keeps.trans {s t u : State} (h : Keeps s t) (h' : Keeps t u) : Keeps s u where
  slotZero := h'.slotZero.trans h.slotZero
  topology := h'.topology.trans h.topology
  devices := h'.devices ∘ h.devices
  handles := h'.handles.trans h.handles

theorem Keeps.raise {s t : State} (h : Keeps s t) (c : FatalCondition) : Keeps s (t.raise c) :=
  h.trans (.of_regions_eq rfl rfl rfl)

theorem Keeps.setPc {s t : State} (h : Keeps s t) (v : Word) : Keeps s (t.setPc v) :=
  h.trans (.of_regions_eq rfl rfl rfl)

theorem Keeps.writeReg {s t : State} (h : Keeps s t) (q : RegIdx) (v : Word) : Keeps s (t.writeReg q v) :=
  h.trans (.of_regions_eq (State.writeReg_slot_zero t q v) rfl rfl)

/-- An access keeps them, if a write carries as many bytes as its width. -/
theorem OnlyRegions.keeps {s t : State} {a : Word} {op : Word → DeviceOp}
    (h : OnlyRegions s t (access s.regions a op).2)
    (hop : ∀ k n l data, op k = .write n l data → data.length = n.bytes) : Keeps s t where
  slotZero := by rw [h.regs]
  topology := by rw [h.newRegions, access_topology]
  devices hdev := by rw [h.newRegions]; exact access_wf s.regions a op hdev hop
  handles := h.handles

theorem memRead_keeps {s s' : State} {n : Width} {a : Word} {x : Except FatalCondition Word}
    (h : memRead s n a = (x, s')) : Keeps s s' :=
  (memRead_onlyRegions h).keeps fun _ _ _ _ hop => by cases hop

theorem memWrite_keeps {s s' : State} {n : Width} {a v : Word} {x : Option FatalCondition}
    (h : memWrite s n a v = (x, s')) : Keeps s s' :=
  (memWrite_onlyRegions h).keeps fun _ _ _ _ hop => by cases hop; exact splitBytes_length n v

theorem Effect.keeps {i : Instr} {s t : State} (h : Effect i s t) : Keeps s t := by
  cases h with
  | zeroDestination | stop => exact (Keeps.refl s).raise _
  | register q v => exact (Keeps.refl s).writeReg q v
  | hiLo | halted | nothing => exact .of_regions_eq rfl rfl rfl
  | control v => exact (Keeps.refl s).setPc v
  | linked v => exact ((Keeps.refl s).writeReg linkReg _).setPc v
  | loadStop _ _ c _ hread => exact (memRead_keeps hread).raise c
  | loaded _ _ _ u _ q hread => exact (memRead_keeps hread).writeReg q u
  | storeStop _ _ _ c _ hwrite => exact (memWrite_keeps hwrite).raise c
  | stored _ _ _ _ hwrite => exact memWrite_keeps hwrite

theorem step_keeps {s t : State} (h : step s = .next t) : Keeps s t := by
  obtain ⟨-, ⟨c, s', hfetch, rfl⟩ | ⟨w, s', e, hfetch, -, rfl⟩ | ⟨w, s', i, hfetch, -, hexec⟩⟩ := step_cases s t h
  · exact (memRead_keeps hfetch).raise c
  · exact ((memRead_keeps hfetch).setPc _).raise _
  · exact ((memRead_keeps hfetch).setPc _).trans (exec_effect i _ t hexec).keeps

/-- The invariant speaks of the handles of the table, which are a part of its topology. -/
theorem State.wf_iff (s : State) :
    s.wf ↔ s.regs[0] = 0#32 ∧ (∀ r ∈ s.regions, r.device.wf) ∧
      ((topology s.regions).map RegionShape.handle).Pairwise (· ≠ ·) ∧
      ∀ h ∈ (topology s.regions).map RegionShape.handle, h < s.nextHandle := by
  rw [← topology_handles, List.pairwise_map, List.forall_mem_map]

theorem Keeps.wf {s t : State} (h : Keeps s t) (hs : s.wf) : t.wf := by
  rw [State.wf_iff] at hs ⊢
  obtain ⟨hzero, hdevices, hdistinct, hbelow⟩ := hs
  rw [h.slotZero, h.topology, h.handles]
  exact ⟨hzero, h.devices hdevices, hdistinct, hbelow⟩

/-! ### No instruction is refused -/

theorem zeroTest_next {field : RegIdx} {i : Instr} {s : State} {body : Result} (h : ∃ t, body = .next t) :
    ∃ t, zeroTest field i s body = .next t := by
  by_cases hf : field = 0#5
  · exact ⟨_, if_pos hf⟩
  · rwa [zeroTest_pass field i s body hf]

theorem finishLoad_next (rt : RegIdx) (widen : Word → Word) (x : Except FatalCondition Word × State) :
    ∃ t, finishLoad rt widen x = .next t := by
  obtain ⟨_ | _, _⟩ := x <;> exact ⟨_, rfl⟩

theorem finishStore_next (x : Option FatalCondition × State) : ∃ t, finishStore x = .next t := by
  obtain ⟨_ | _, _⟩ := x <;> exact ⟨_, rfl⟩

/-- Division always has a result under `DIV_OVERFLOW = wrap` (log 11). -/
theorem signedDivide_wrap (a b : Word) :
    signedDivide Config.divOverflow a b = some (BitVec.ofInt 32 (Int.tdiv a.toInt b.toInt),
      BitVec.ofInt 32 (a.toInt - Int.tdiv a.toInt b.toInt * b.toInt)) := by
  rcases signedDivide_cases Config.divOverflow a b with ⟨⟨-, -, hmode⟩, -⟩ | h
  · cases hmode
  · exact h

/-- DIV, past its two tests (R143). -/
theorem exec_div (rs rt rd : RegIdx) (shamt : Shamt) (s : State) :
    exec (.div rs rt rd shamt) s = zeroTest rd (.div rs rt rd shamt) s
      (if s.readReg rt = 0#32 then .next (s.raise (.divideByZero (encode (.div rs rt rd shamt))))
       else .next ((s.setLo (BitVec.ofInt 32 (Int.tdiv (s.readReg rs).toInt (s.readReg rt).toInt))).setHi
        (BitVec.ofInt 32 ((s.readReg rs).toInt -
          Int.tdiv (s.readReg rs).toInt (s.readReg rt).toInt * (s.readReg rt).toInt)))) := by
  simp only [exec, execDiv, signedDivide_wrap]

/-- DIVU, past its two tests (R144). -/
theorem exec_divu (rs rt rd : RegIdx) (shamt : Shamt) (s : State) :
    exec (.divu rs rt rd shamt) s = zeroTest rd (.divu rs rt rd shamt) s
      (if s.readReg rt = 0#32 then .next (s.raise (.divideByZero (encode (.divu rs rt rd shamt))))
       else .next ((s.setLo (unsignedDivide (s.readReg rs) (s.readReg rt)).1).setHi
        (unsignedDivide (s.readReg rs) (s.readReg rt)).2)) := rfl

/-- Every instruction answers a next state. -/
theorem exec_next (i : Instr) (s : State) : ∃ t, exec i s = .next t := by
  cases i
  case div =>
    rw [exec_div]
    exact zeroTest_next (by split <;> exact ⟨_, rfl⟩)
  case divu =>
    rw [exec_divu]
    exact zeroTest_next (by split <;> exact ⟨_, rfl⟩)
  case lb | lbu | lhw | lhwu | lw => exact zeroTest_next (finishLoad_next _ _ _)
  case sb | shw | sw => exact finishStore_next _
  case beq | bne | blez | bgtz | bltz | bgez | bltzal | bgezal | j | jal | syscall => exact ⟨_, rfl⟩
  case lwl | lwr | swl | swr | lwc0 | lwc1 | lwc2 | lwc3 | swc0 | swc1 | swc2 | swc3 | cop0 | cop1 | cop2 | cop3 =>
    exact ⟨_, rfl⟩
  all_goals exact zeroTest_next ⟨_, rfl⟩

theorem step_next {s : State} (hs : s.status = .running) : ∃ t, step s = .next t := by
  rcases hfetch : fetch s with ⟨c | w, s'⟩
  · exact ⟨_, step_of_fetch_error hs hfetch⟩
  · cases hdecode : decodeWord w with
    | error e => exact ⟨_, step_of_decode_error hs hfetch hdecode⟩
    | ok i => rw [step_of_decode_ok hs hfetch hdecode]; exact exec_next i _

/-! ### Runs -/

/-- What every step relates, every run does, if it is reflexive and transitive. -/
theorem run_induction {R : State → State → Prop} (hrefl : ∀ s, R s s) (htrans : ∀ s t u, R s t → R t u → R s u)
    (hstep : ∀ s t, step s = .next t → R s t) (k : Nat) (s t : State) (h : run k s = .next t) : R s t := by
  induction k generalizing s with
  | zero => cases h; exact hrefl t
  | succ k ih =>
    by_cases hs : s.status = .running
    · obtain ⟨u, hu⟩ := step_next hs
      rw [run_succ k s u hs hu] at h
      exact htrans s u t (hstep s u hu) (ih u h)
    · rw [run_stopped _ s hs] at h
      cases h
      exact hrefl t

theorem run_stops_for_good (k : Nat) (s : State) :
    ∃ t, run k s = .next t ∧ (t.status ≠ .running → ∀ j, run (k + j) s = .next t) := by
  induction k generalizing s with
  | zero => exact ⟨s, rfl, fun hs j => run_stopped _ s hs⟩
  | succ k ih =>
    by_cases hs : s.status = .running
    · obtain ⟨u, hu⟩ := step_next hs
      obtain ⟨t, ht, hmore⟩ := ih u
      refine ⟨t, (run_succ k s u hs hu).trans ht, fun hstop j => ?_⟩
      rw [Nat.succ_add, run_succ _ s u hs hu, hmore hstop j]
    · exact ⟨s, run_stopped _ s hs, fun _ j => run_stopped _ s hs⟩

/-! ### How an instruction ends -/

/-- `t` has the registers, hi, lo and every byte of memory that `s` has. -/
structure SameContents (s t : State) : Prop where
  regs : t.regs = s.regs
  hi : t.hi = s.hi
  lo : t.lo = s.lo
  memory : ∀ a, peekByte t.regions a = peekByte s.regions a

theorem SameContents.refl (s : State) : SameContents s s := ⟨rfl, rfl, rfl, fun _ => rfl⟩

theorem SameContents.setPc {s t : State} (h : SameContents s t) (v : Word) : SameContents s (t.setPc v) :=
  ⟨h.regs, h.hi, h.lo, h.memory⟩

theorem SameContents.raise {s t : State} (h : SameContents s t) (c : FatalCondition) : SameContents s (t.raise c) :=
  ⟨h.regs, h.hi, h.lo, h.memory⟩

theorem SameContents.trans {s t u : State} (h : SameContents s t) (h' : SameContents t u) : SameContents s u where
  regs := h'.regs.trans h.regs
  hi := h'.hi.trans h.hi
  lo := h'.lo.trans h.lo
  memory a := (h'.memory a).trans (h.memory a)

/-- A read changes no register and no byte (R45). -/
theorem memRead_sameContents {s s' : State} {n : Width} {a : Word} {x : Except FatalCondition Word}
    (h : memRead s n a = (x, s')) : SameContents s s' :=
  have honly := memRead_onlyRegions h
  ⟨honly.regs, honly.hi, honly.lo, peekByte_memRead h⟩

/-- A write that raises a condition changes no register and no byte (R47). -/
theorem memWrite_sameContents_error {s s' : State} {n : Width} {a v : Word} {c : FatalCondition}
    (h : memWrite s n a v = (some c, s')) : SameContents s s' :=
  have honly := memWrite_onlyRegions h
  ⟨honly.regs, honly.hi, honly.lo, peekByte_memWrite_error h⟩

/-- The mapper never raises `ZeroRegisterWrite`. -/
theorem access_error_ne_zeroRegisterWrite {rs : List Region} {a : Word} {op : Word → DeviceOp} {c : FatalCondition}
    (h : (access rs a op).1 = .error c) (w : Word) : c ≠ .zeroRegisterWrite w := by
  rcases access_error_cases h with rfl | ⟨o, e, rfl⟩
  · exact nofun
  · cases e <;> exact nofun

/-- The instruction `i` stopped `s` with condition `c`: nothing but the status and a device asked has changed, and
`ZeroRegisterWrite` comes from the zero-destination test alone. -/
structure Stopped (i : Instr) (s t : State) (c : FatalCondition) : Prop where
  status : t.status = .fault c
  contents : SameContents s t
  pc : t.pc = s.pc
  zeroDestination : ∀ w, c = .zeroRegisterWrite w → i.wellFormed = false

theorem Stopped.of_raise {i : Instr} {s t : State} {c : FatalCondition} (hcontents : SameContents s t)
    (hpc : t.pc = s.pc) (hzero : ∀ w, c = .zeroRegisterWrite w → i.wellFormed = false) :
    Stopped i s (t.raise c) c :=
  ⟨rfl, hcontents.raise c, hpc, hzero⟩

/-- How every instruction ends: the status stays, or SYSCALL 10 halts, or a condition stops the machine. -/
theorem Effect.ending {i : Instr} {s t : State} (h : Effect i s t) :
    t.status = s.status ∨
    (t.status = .halted ∧ ∃ rs rt rd shamt, i = .syscall rs rt rd shamt ∧ syscallCode rs rt shamt = 10#20) ∨
    ∃ c, Stopped i s t c := by
  cases h with
  | register | hiLo | control | linked | nothing => exact .inl rfl
  | halted rs rt rd shamt hi hcode => exact .inr (.inl ⟨rfl, rs, rt, rd, shamt, hi, hcode⟩)
  | zeroDestination hw => exact .inr (.inr ⟨_, .of_raise (.refl s) rfl fun _ _ => hw⟩)
  | stop c hc _ =>
    refine .inr (.inr ⟨c, .of_raise (.refl s) rfl fun w hzero => ?_⟩)
    subst hzero
    rcases hc with hc | hc <;> cases hc
  | loadStop _ _ c _ hread _ =>
    have hne := access_error_ne_zeroRegisterWrite (memRead_eq_error hread)
    exact .inr (.inr ⟨c, .of_raise (memRead_sameContents hread) (memRead_onlyRegions hread).pc
      fun w hzero => absurd hzero (hne w)⟩)
  | loaded _ _ _ _ _ _ hread => exact .inl (memRead_onlyRegions hread).status
  | storeStop _ _ _ c _ hwrite _ =>
    have hne := access_error_ne_zeroRegisterWrite (memWrite_eq_some hwrite)
    exact .inr (.inr ⟨c, .of_raise (memWrite_sameContents_error hwrite) (memWrite_onlyRegions hwrite).pc
      fun w hzero => absurd hzero (hne w)⟩)
  | stored _ _ _ _ hwrite => exact .inl (memWrite_onlyRegions hwrite).status

/-- Only SYSCALL 10 takes a running machine to Halted (R230). -/
theorem Effect.syscall_of_halted {i : Instr} {s t : State} (h : Effect i s t) (hs : s.status = .running)
    (ht : t.status = .halted) :
    ∃ rs rt rd shamt, i = .syscall rs rt rd shamt ∧ syscallCode rs rt shamt = 10#20 := by
  rcases h.ending with hsame | ⟨-, hsyscall⟩ | ⟨c, hstop⟩
  · cases ht.symm.trans (hsame.trans hs)
  · exact hsyscall
  · cases ht.symm.trans hstop.status

/-- A running machine that is in a fatal condition after the instruction was stopped by it. -/
theorem Effect.stopped_of_fault {i : Instr} {s t : State} {c : FatalCondition} (h : Effect i s t)
    (hs : s.status = .running) (ht : t.status = .fault c) : Stopped i s t c := by
  rcases h.ending with hsame | ⟨hhalted, -⟩ | ⟨c', hstop⟩
  · cases ht.symm.trans (hsame.trans hs)
  · cases ht.symm.trans hhalted
  · cases ht.symm.trans hstop.status
    exact hstop

/-! ### What an instruction that is none of its kind leaves alone -/

/-- Only branches and jumps write pc (R24). -/
theorem Effect.pc {i : Instr} {s t : State} (h : Effect i s t) (hi : writesPc i = false) : t.pc = s.pc := by
  cases h with
  | zeroDestination | stop | register | hiLo | halted | nothing => rfl
  | control _ hpc | linked _ hpc => rw [hi] at hpc; cases hpc
  | loadStop _ _ _ _ hread | loaded _ _ _ _ _ _ hread => exact (memRead_onlyRegions hread).pc
  | storeStop _ _ _ _ _ hwrite | stored _ _ _ _ hwrite => exact (memWrite_onlyRegions hwrite).pc

/-- Only multiply, divide, MTHI and MTLO write hi and lo (R26). -/
theorem Effect.hi_lo {i : Instr} {s t : State} (h : Effect i s t) (hi : writesHiLo i = false) :
    t.hi = s.hi ∧ t.lo = s.lo := by
  cases h with
  | zeroDestination | stop | register | control | linked | halted | nothing => exact ⟨rfl, rfl⟩
  | hiLo _ _ hw => rw [hi] at hw; cases hw
  | loadStop _ _ _ _ hread | loaded _ _ _ _ _ _ hread =>
    exact ⟨(memRead_onlyRegions hread).hi, (memRead_onlyRegions hread).lo⟩
  | storeStop _ _ _ _ _ hwrite | stored _ _ _ _ hwrite =>
    exact ⟨(memWrite_onlyRegions hwrite).hi, (memWrite_onlyRegions hwrite).lo⟩

/-- Only stores write memory (R40). -/
theorem Effect.memory {i : Instr} {s t : State} (h : Effect i s t) (hi : writesMemory i = false) (a : Word) :
    peekByte t.regions a = peekByte s.regions a := by
  cases h with
  | zeroDestination | stop | register | hiLo | control | linked | halted | nothing => rfl
  | loadStop _ _ _ _ hread | loaded _ _ _ _ _ _ hread => exact (memRead_sameContents hread).memory a
  | storeStop _ _ _ _ _ _ hw | stored _ _ _ _ _ hw => rw [hi] at hw; cases hw

theorem State.readReg_congr {s t : State} (h : t.regs = s.regs) (q : RegIdx) : t.readReg q = s.readReg q := by
  simp only [State.readReg, h]

/-- A register that reads otherwise after one register write is the register written. -/
theorem State.eq_of_readReg_writeReg_ne {s t : State} {q r : RegIdx} {v : Word} (ht : t.regs = s.regs)
    (h : (t.writeReg r v).readReg q ≠ s.readReg q) : q = r := by
  by_contra hq
  rw [State.readReg_writeReg_other t r q v hq, State.readReg_congr ht] at h
  exact h rfl

/-- Only the destination is written (R22, R33). -/
theorem Effect.destination {i : Instr} {s t : State} {q : RegIdx} (h : Effect i s t)
    (hq : t.readReg q ≠ s.readReg q) : destination i = some q ∧ q ≠ 0#5 := by
  cases h with
  | zeroDestination | stop | hiLo | control | halted | nothing => exact absurd rfl hq
  | register r v hd hr =>
    obtain rfl := State.eq_of_readReg_writeReg_ne rfl hq
    exact ⟨hd, hr⟩
  | linked v _ hd =>
    obtain rfl := State.eq_of_readReg_writeReg_ne (t := s) rfl hq
    exact ⟨hd, by decide⟩
  | loaded _ _ _ _ _ r hread hd hr =>
    obtain rfl := State.eq_of_readReg_writeReg_ne (memRead_onlyRegions hread).regs hq
    exact ⟨hd, hr⟩
  | loadStop _ _ _ _ hread => exact absurd (State.readReg_congr (memRead_onlyRegions hread).regs q) hq
  | storeStop _ _ _ _ _ hwrite | stored _ _ _ _ hwrite =>
    exact absurd (State.readReg_congr (memWrite_onlyRegions hwrite).regs q) hq

/-! ### The zero-destination test (R92, R93) -/

/-- The first thing the meaning of an instruction with a tested field does is that test. -/
theorem exec_eq_zeroTest {i : Instr} {field : RegIdx} (h : i.testedField = some field) (s : State) :
    ∃ body, exec i s = zeroTest field i s body := by
  cases i <;> cases h <;> exact ⟨_, rfl⟩

theorem wellFormed_eq_false_iff (i : Instr) : i.wellFormed = false ↔ i.testedField = some 0#5 := by
  unfold Instr.wellFormed
  cases i.testedField <;> simp

theorem stopsWith_zeroRegisterWrite {i : Instr} (h : i.wellFormed = false) (s : State) :
    StopsWith i s (.zeroRegisterWrite (encode i)) :=
  have ⟨_, hexec⟩ := exec_eq_zeroTest ((wellFormed_eq_false_iff i).1 h) s
  stopsWith_of_zeroTest hexec

/-! ### SYSCALL's code (R230) -/

theorem extractLsb'_shamt_syscallCode (rs rt : RegIdx) (shamt : Shamt) :
    (syscallCode rs rt shamt).extractLsb' 0 5 = shamt := by
  apply BitVec.eq_of_getLsbD_eq
  intro k hk
  simp only [syscallCode, BitVec.getLsbD_extractLsb']
  interval_cases k <;> simp

theorem extractLsb'_rs_syscallCode (rs rt : RegIdx) (shamt : Shamt) :
    (syscallCode rs rt shamt).extractLsb' 10 5 = rs := by
  apply BitVec.eq_of_getLsbD_eq
  intro k hk
  simp only [syscallCode, BitVec.getLsbD_extractLsb']
  interval_cases k <;> simp

theorem extractLsb'_rt_syscallCode (rs rt : RegIdx) (shamt : Shamt) :
    (syscallCode rs rt shamt).extractLsb' 15 5 = rt := by
  apply BitVec.eq_of_getLsbD_eq
  intro k hk
  simp only [syscallCode, BitVec.getLsbD_extractLsb']
  interval_cases k <;> simp

/-- Code 10 is one triple of field numbers alone, since each field can be read off the code. -/
theorem syscallCode_eq_ten_iff (rs rt : RegIdx) (shamt : Shamt) :
    syscallCode rs rt shamt = 10#20 ↔ rs = 0#5 ∧ rt = 0#5 ∧ shamt = 10#5 := by
  constructor
  · intro h
    have hrs := extractLsb'_rs_syscallCode rs rt shamt
    have hrt := extractLsb'_rt_syscallCode rs rt shamt
    have hshamt := extractLsb'_shamt_syscallCode rs rt shamt
    rw [h] at hrs hrt hshamt
    exact ⟨hrs.symm, hrt.symm, hshamt.symm⟩
  · rintro ⟨rfl, rfl, rfl⟩
    rfl

end Sys2Proof.Machine

namespace Sys2Proof.Proofs

open Sys2Proof Sys2Proof.Machine

/-- Settles O12: no condition halts, and of the instructions SYSCALL alone, with the code 10. -/
theorem onlySyscallTenHalts : Obligations.OnlySyscallTenHalts := by
  intro s t h ht
  obtain ⟨hs, ⟨c, s', -, rfl⟩ | ⟨w, s', e, -, -, rfl⟩ | ⟨w, s', i, hfetch, hdecode, hexec⟩⟩ := step_cases s t h
  · cases ht
  · cases ht
  · have hs' : s'.status = .running := (memRead_onlyRegions hfetch).status.trans hs
    obtain ⟨rs, rt, rd, shamt, rfl, hcode⟩ := (exec_effect i _ t hexec).syscall_of_halted hs' ht
    obtain ⟨rfl, rfl, rfl⟩ := (syscallCode_eq_ten_iff rs rt shamt).1 hcode
    exact ⟨w, s', rd, hfetch, hdecode⟩

/-- Settles O13: a fetch is a read, and an instruction stops before it has changed anything. -/
theorem fatalStopIsPrecise : Obligations.FatalStopIsPrecise := by
  intro s t c h ht
  obtain ⟨hs, ⟨c', s', hfetch, rfl⟩ | ⟨w, s', e, hfetch, -, rfl⟩ | ⟨w, s', i, hfetch, -, hexec⟩⟩ := step_cases s t h
  all_goals
    have hpc := (memRead_onlyRegions hfetch).pc
    have hread := memRead_sameContents hfetch
  · exact ⟨hread.regs, hread.hi, hread.lo, .inl hpc, hread.memory⟩
  · exact ⟨hread.regs, hread.hi, hread.lo, .inr (congrArg (· + 4#32) hpc), hread.memory⟩
  · have hs' : s'.status = .running := (memRead_onlyRegions hfetch).status.trans hs
    have hstop := (exec_effect i _ t hexec).stopped_of_fault hs' ht
    obtain ⟨hregs, hhi, hlo, hmemory⟩ := (hread.setPc _).trans hstop.contents
    exact ⟨hregs, hhi, hlo, .inr (hstop.pc.trans (congrArg (· + 4#32) hpc)), hmemory⟩

/-- Settles O14: the invariant speaks of nothing that a step changes, but for devices, which stay canonical. -/
theorem stepKeepsInvariant : Obligations.StepKeepsInvariant :=
  fun _ _ hs h => (step_keeps h).wf hs

/-- Settles O15: at reset slot 0 holds 0 and the table is empty. -/
theorem resetMeetsInvariant : Obligations.ResetMeetsInvariant :=
  ⟨rfl, List.forall_mem_nil _, List.Pairwise.nil, List.forall_mem_nil _⟩

/-- Settles O16, by induction over the run. -/
theorem runKeepsTopology : Obligations.RunKeepsTopology := by
  intro k s t h
  have hkeeps := run_induction Keeps.refl (fun _ _ _ => Keeps.trans) (fun _ _ => step_keeps) k s t h
  exact ⟨hkeeps.topology, hkeeps.handles⟩

/-- Settles O11: whatever the fetch answers, and every instruction answers a next state. -/
theorem runningMachineAlwaysSteps : Obligations.RunningMachineAlwaysSteps :=
  fun _ => step_next

/-- Settles O17, by induction on the budget. -/
theorem runStopsForGood : Obligations.RunStopsForGood := run_stops_for_good

/-- Settles O18: a register other than 0 holds what the whole file was filled with. -/
theorem resetState : Obligations.ResetState := by
  refine ⟨fun i => ?_, rfl, rfl, rfl, rfl, rfl⟩
  have hfile : State.reset.regs = Vector.replicate 32 0#32 := by decide
  rw [State.readReg, hfile, Vector.getElem_replicate, ite_self]

/-- Settles O20: of the effects an instruction can have, only those of branches and jumps write pc. -/
theorem onlyControlTransferWritesPc : Obligations.OnlyControlTransferWritesPc :=
  fun i s t h hi => (exec_effect i s t h).pc hi

/-- Settles O21, by the effects: one writes hi and lo. -/
theorem onlyMulDivMovesWriteHiLo : Obligations.OnlyMulDivMovesWriteHiLo :=
  fun i s t h hi => (exec_effect i s t h).hi_lo hi

/-- Settles O22, by the effects: a read changes no byte, and only stores write. -/
theorem onlyStoresWriteMemory : Obligations.OnlyStoresWriteMemory :=
  fun i s t h hi => (exec_effect i s t h).memory hi

/-- Settles O23, by the effects: those that write a register write the destination. -/
theorem onlyTheDestinationIsWritten : Obligations.OnlyTheDestinationIsWritten :=
  fun i s t _ h hq => (exec_effect i s t h).destination hq

/-- Settles O25: the test is the first thing the meaning of the instruction does. -/
theorem zeroDestinationComesFirst : Obligations.ZeroDestinationComesFirst :=
  fun _ s hi => stopsWith_zeroRegisterWrite hi s

/-- Settles O24: each of the 26 functions tests `rd`. -/
theorem zeroDestinationStopsEveryFunction : Obligations.ZeroDestinationStopsEveryFunction := by
  have htested : ∀ f ∈ [Instr.sll, .srl, .sra, .sllv, .srlv, .srav, .jr, .jalr, .mfhi, .mthi, .mflo, .mtlo, .mult,
      .multu, .div, .divu, .add, .addu, .sub, .subu, .and, .or, .xor, .nor, .slt, .sltu],
      ∀ rs rt rd shamt, (f rs rt rd shamt).testedField = some rd := by
    intro f hf rs rt rd shamt
    fin_cases hf <;> rfl
  intro f hf rs rt shamt s
  exact stopsWith_zeroRegisterWrite ((wellFormed_eq_false_iff _).2 (htested f hf rs rt 0#5 shamt)) s

/-- Settles O26: the mapper raises other conditions, and so do division and the refused classes. -/
theorem onlyZeroDestinationRaisesIt : Obligations.OnlyZeroDestinationRaisesIt := by
  intro i s t w hs h ht
  exact ((exec_effect i s t h).stopped_of_fault hs ht).zeroDestination w rfl

end Sys2Proof.Proofs
end

section
/-! Wrapping arithmetic, variable shifts and immediates (40_alu_register.md R112, R114; 41_shift.md R134 to R136;
43_alu_immediate.md R160 to R168; 93_implementation_defined.md U4 to U6). -/

namespace Sys2Proof.Machine

/-! ### The shift amount in a register (R84) -/

theorem toNat_variableShift (v : Word) : (variableShift v).toNat = v.toNat % 32 := by
  simp [variableShift]

theorem shiftLeft_variableShift (v n : Word) :
    shiftLeft v (variableShift n) = BitVec.ofNat 32 (v.toNat * 2 ^ (n.toNat % 32)) := by
  rw [shiftLeft_eq_ofNat, toNat_variableShift]

theorem shiftRightLogical_variableShift (v n : Word) :
    shiftRightLogical v (variableShift n) = BitVec.ofNat 32 (v.toNat / 2 ^ (n.toNat % 32)) := by
  rw [shiftRightLogical_eq_ofNat, toNat_variableShift]

theorem shiftRightArith_variableShift (v n : Word) :
    shiftRightArith v (variableShift n) = BitVec.ofInt 32 (v.toInt / 2 ^ (n.toNat % 32)) := by
  rw [shiftRightArith_eq_ofInt, toNat_variableShift]

/-! ### What an immediate stands for once widened (R84) -/

theorem toInt_signExtendImm (imm : Imm) : (signExtendImm imm).toInt = imm.toInt :=
  BitVec.toInt_signExtend_of_le (by decide)

theorem toNat_zeroExtendImm (imm : Imm) : (zeroExtendImm imm).toNat = imm.toNat :=
  BitVec.toNat_setWidth_of_le (by decide)

/-- Adding a sign-extended immediate adds its signed reading, modulo 2^32. -/
theorem add_signExtendImm (a : Word) (imm : Imm) :
    a + signExtendImm imm = BitVec.ofInt 32 ((a.toNat : Int) + imm.toInt) := by
  rw [BitVec.ofInt_add, BitVec.ofInt_natCast, BitVec.ofNat_toNat, BitVec.setWidth_eq]
  rfl

/-- Adding a zero-extended immediate adds its unsigned reading, modulo 2^32. -/
theorem add_zeroExtendImm (a : Word) (imm : Imm) :
    a + zeroExtendImm imm = BitVec.ofNat 32 (a.toNat + imm.toNat) := by
  rw [BitVec.ofNat_add, BitVec.ofNat_toNat, BitVec.ofNat_toNat, BitVec.setWidth_eq]
  rfl

theorem boolWord_lessSigned_signExtendImm (a : Word) (imm : Imm) :
    boolWord (lessSigned a (signExtendImm imm)) = if a.toInt < imm.toInt then 1#32 else 0#32 := by
  rw [boolWord_lessSigned, toInt_signExtendImm]

/-- SLTIU widens with zeros, by `SLTIU_IMM_EXT = zero` (log 10). -/
theorem boolWord_lessUnsigned_sltiuImm (a : Word) (imm : Imm) :
    boolWord (lessUnsigned a (sltiuImm Config.sltiuImmExt imm)) = if a.toNat < imm.toNat then 1#32 else 0#32 := by
  rw [boolWord_lessUnsigned, Config.sltiuImmExt, sltiuImm, toNat_zeroExtendImm]

/-! ### Logic half by half: bit `k` of the word is bit `k` of the lower half or bit `k - 16` of the upper one -/

theorem and_zeroExtendImm (a : Word) (imm : Imm) :
    a &&& zeroExtendImm imm = 0#16 ++ (a.extractLsb' 0 16 &&& imm) := by
  apply BitVec.eq_of_getLsbD_eq
  intro k hk
  rw [BitVec.getLsbD_append]
  interval_cases k <;> simp [zeroExtendImm]

theorem or_zeroExtendImm (a : Word) (imm : Imm) :
    a ||| zeroExtendImm imm = a.extractLsb' 16 16 ++ (a.extractLsb' 0 16 ||| imm) := by
  apply BitVec.eq_of_getLsbD_eq
  intro k hk
  rw [BitVec.getLsbD_append]
  interval_cases k <;> simp [zeroExtendImm]

theorem xor_zeroExtendImm (a : Word) (imm : Imm) :
    a ^^^ zeroExtendImm imm = a.extractLsb' 16 16 ++ (a.extractLsb' 0 16 ^^^ imm) := by
  apply BitVec.eq_of_getLsbD_eq
  intro k hk
  rw [BitVec.getLsbD_append]
  interval_cases k <;> simp [zeroExtendImm]

theorem upperImm_eq_append (imm : Imm) : upperImm imm = imm ++ 0#16 := by
  apply BitVec.eq_of_getLsbD_eq
  intro k hk
  rw [BitVec.getLsbD_append]
  interval_cases k <;> simp [upperImm]

/-! ### The result of an immediate operation -/

/-- The result of an immediate operation (R160), read through any other form `f` of what it computes. -/
theorem ImmResult.of_immOp {mk : RegIdx → RegIdx → Imm → Instr} {g : Imm → Word → Word} {f : Word → Imm → Word}
    (hfg : ∀ a imm, g imm a = f a imm)
    (h : ∀ rs rt imm s, exec (mk rs rt imm) s = immOp (g imm) (mk rs rt imm) rs rt s) : ImmResult mk f := by
  intro rs rt imm s
  have hexec := h rs rt imm s
  rw [immOp, hfg] at hexec
  constructor
  · intro hrt
    exact ⟨_, exec_past_zeroTest hexec hrt, onlyReg_writeReg s rt _ hrt⟩
  · rintro rfl
    exact ⟨_, stopsWith_of_zeroTest hexec⟩

/-! ### The parameters of R6 -/

/-- Zero and sign extension agree exactly where the top bit of the immediate is clear (U6). -/
theorem sltiuImm_zero_eq_sign_iff (imm : Imm) : sltiuImm .zero imm = sltiuImm .sign imm ↔ imm.toNat < 0x8000 := by
  have hzero := toNat_zeroExtendImm imm
  have hsign := toInt_signExtendImm imm
  have hlt := imm.isLt
  rw [← BitVec.toInt_inj, sltiuImm, sltiuImm, hsign, BitVec.toInt_eq_toNat_cond, hzero, BitVec.toInt_eq_toNat_cond]
  omega

/-- The two readings of BGEZ agree exactly off zero (U5). -/
theorem bgezTaken_true_eq_false_iff (v : Word) : bgezTaken true v = bgezTaken false v ↔ v ≠ 0#32 := by
  by_cases hv : v = 0#32
  · subst hv
    decide
  · simp [bgezTaken, hv]

/-- The two settings of `DIV_OVERFLOW` agree exactly outside the overflowing case (U4). -/
theorem signedDivide_wrap_eq_refuse_iff (a b : Word) :
    signedDivide .wrap a b = signedDivide .refuse a b ↔ ¬ (a = 0x80000000#32 ∧ b = 0xFFFFFFFF#32) := by
  by_cases h : a = 0x80000000#32 ∧ b = 0xFFFFFFFF#32
  · simp [signedDivide, h]
  · simp [signedDivide, h]

end Sys2Proof.Machine

namespace Sys2Proof.Proofs

open Sys2Proof Sys2Proof.Machine

/-- Settles O28: ADDU and SUBU compute what ADD and SUB do. -/
theorem adduSubuResults : Obligations.AdduSubuResults :=
  ⟨.of_regOp (fun a b _ => add_eq_ofNat_mod a b) fun _ _ _ _ _ => rfl,
   .of_regOp (fun a b _ => sub_eq_ofInt_mod a b) fun _ _ _ _ _ => rfl⟩

/-- Settles O32: each is the shift by an immediate amount, the amount taken from a register modulo 32. -/
theorem variableShiftResults : Obligations.VariableShiftResults :=
  ⟨.of_regOp (fun a b _ => shiftLeft_variableShift a b) fun _ _ _ _ _ => rfl,
   .of_regOp (fun a b _ => shiftRightLogical_variableShift a b) fun _ _ _ _ _ => rfl,
   .of_regOp (fun a b _ => shiftRightArith_variableShift b a) fun _ _ _ _ _ => rfl⟩

/-- Settles O38: adding a widened immediate adds the number it stands for. -/
theorem addImmediateResults : Obligations.AddImmediateResults :=
  ⟨.of_immOp add_signExtendImm fun _ _ _ _ => rfl, .of_immOp add_zeroExtendImm fun _ _ _ _ => rfl⟩

/-- Settles O39: the comparison of two words, one of them the widened immediate. -/
theorem compareImmediateResults : Obligations.CompareImmediateResults :=
  ⟨.of_immOp boolWord_lessSigned_signExtendImm fun _ _ _ _ => rfl,
   .of_immOp boolWord_lessUnsigned_sltiuImm fun _ _ _ _ => rfl⟩

/-- Settles O40, bit by bit. -/
theorem logicImmediateResults : Obligations.LogicImmediateResults :=
  ⟨.of_immOp and_zeroExtendImm fun _ _ _ _ => rfl, .of_immOp or_zeroExtendImm fun _ _ _ _ => rfl,
   .of_immOp xor_zeroExtendImm fun _ _ _ _ => rfl, .of_immOp (fun _ => upperImm_eq_append) fun _ _ _ _ => rfl⟩

/-- Settles O41, one parameter at a time. -/
theorem parametersMatterOnlyWhereSaid : Obligations.ParametersMatterOnlyWhereSaid :=
  ⟨sltiuImm_zero_eq_sign_iff, bgezTaken_true_eq_false_iff, signedDivide_wrap_eq_refuse_iff⟩

end Sys2Proof.Proofs
end

section
/-! Loads and stores, by what the effective address resolves to (44_load_store.md R180 to R190, 20_memory.md R42 to
R57, R66). -/

namespace Sys2Proof.Machine

/-- The rule R180: base plus the signed reading of the displacement, modulo 2^32. -/
theorem effectiveAddressRule : EffectiveAddressRule :=
  fun s rs imm => add_signExtendImm (s.readReg rs) imm

/-! ### Runs of bytes written -/

/-- Inside the run written: the byte written there (R46). -/
theorem Memory.read_writeBytes_inside {m : Memory} (h : m.wf) (k : Nat) {bs : List Byte} {i : Nat}
    (hi : i < bs.length) : (m.writeBytes k bs).read (k + i) = bs[i] := by
  simp [Memory.read_writeBytes m k _ bs h, hi]

/-- Outside it: what was there before (R46). -/
theorem Memory.read_writeBytes_outside {m : Memory} (h : m.wf) {k j : Nat} {bs : List Byte}
    (hj : j < k ∨ k + bs.length ≤ j) : (m.writeBytes k bs).read j = m.read j := by
  rw [Memory.read_writeBytes m k j bs h]
  split
  · exact dif_neg (by omega)
  · rfl

/-! ### What a write into a Memory Device leaves unchanged elsewhere -/

/-- Addresses outside a run of bytes are given to the device outside that run: a region translates by subtracting
its start, or not at all (R52). -/
theorem Region.translate_outside {r : Region} {a b : Word} {n : Nat} (ha : r.covers a = true)
    (hb : r.covers b = true) (h : a.toNat < b.toNat ∨ b.toNat + n ≤ a.toNat) :
    (r.translate a).toNat < (r.translate b).toNat ∨ (r.translate b).toNat + n ≤ (r.translate a).toNat := by
  cases hm : r.remap with
  | true =>
    obtain ⟨hstart, -⟩ := (r.covers_iff a).1 ha
    obtain ⟨hstart', -⟩ := (r.covers_iff b).1 hb
    rw [Region.translate_remap ha hm, Region.translate_remap hb hm]
    omega
  | false => rwa [Region.translate_no_remap hm, Region.translate_no_remap hm]

/-- Every global address outside the bytes written reads as before (R40, R46). -/
theorem peekByte_memWrite_outside {s s' : State} {n : Width} {a b v : Word} {r : Region} {d : MemoryDevice}
    {x : Option FatalCondition} (hs : s.wf) (h : Reaches s n b r d) (hwrite : memWrite s n b v = (x, s'))
    (ha : a.toNat < b.toNat ∨ b.toNat + n.bytes ≤ a.toNat) :
    peekByte s'.regions a = peekByte s.regions a := by
  obtain ⟨front, back, hregions, -, hwrite'⟩ := memWrite_reaches s n b v r d h
  cases hwrite.symm.trans hwrite'
  rw [hregions]
  refine peekByte_replace front back fun hr => ?_
  have hout := r.translate_outside hr (resolve_some _ _ _ h.resolves).2 ha
  rw [← splitBytes_length n v] at hout
  simp only [h.memory, Device.byteAt, Memory.read_writeBytes_outside (h.mem_wf hs) hout]

/-- Replacing the device of one region leaves the resolution to every other region as it was. -/
theorem resolve_replace_other {front back : List Region} {r q : Region} {a : Word} (dev : Device)
    (h : resolve (front ++ r :: back) a = some q) (hq : q ≠ r) :
    resolve (front ++ { r with device := dev } :: back) a = some q := by
  rw [resolve_replace front back r r.device a] at h
  rw [resolve_replace]
  cases hfront : resolve front a with
  | some p => rwa [hfront] at h
  | none =>
    by_cases hr : r.covers a = true
    · simp only [hfront, hr, if_true, Option.some.injEq] at h
      exact absurd h.symm hq
    · simpa [hfront, hr] using h

/-! ### Widening the value read (R181) -/

/-- Zeros set in front of a value widen it. -/
theorem zero_append_eq_setWidth {n : Nat} (m : Nat) (x : BitVec n) : 0#m ++ x = x.setWidth (m + n) := by
  apply BitVec.eq_of_toNat_eq
  rw [BitVec.toNat_append, BitVec.toNat_setWidth_of_le (Nat.le_add_left n m)]
  simp

theorem signExtendRead_byte (b : Byte) : signExtendRead .byte (assembleBytes [b]) = b.signExtend 32 := by
  simp [signExtendRead, assemble_one]

theorem signExtendRead_half (b0 b1 : Byte) :
    signExtendRead .half (assembleBytes [b0, b1]) = (b0 ++ b1).signExtend 32 := by
  simp [signExtendRead, assemble_two]

theorem zeroExtendRead_byte (b : Byte) : zeroExtendRead .byte (assembleBytes [b]) = 0#24 ++ b := by
  rw [zero_append_eq_setWidth]
  simp [zeroExtendRead, assemble_one]

theorem zeroExtendRead_half (b0 b1 : Byte) :
    zeroExtendRead .half (assembleBytes [b0, b1]) = 0#16 ++ (b0 ++ b1) := by
  rw [zero_append_eq_setWidth]
  simp [zeroExtendRead, assemble_two]

theorem zeroExtendRead_word (b0 b1 b2 b3 : Byte) :
    zeroExtendRead .word (assembleBytes [b0, b1, b2, b3]) = b0 ++ b1 ++ b2 ++ b3 :=
  assemble_four b0 b1 b2 b3

/-! ### Loads -/

/-- `mk` makes a load of width `n` that widens what it reads by `widen`. -/
def IsLoad (mk : RegIdx → RegIdx → Imm → Instr) (n : Width) (widen : Word → Word) : Prop :=
  ∀ rs rt imm s, exec (mk rs rt imm) s = load n widen (mk rs rt imm) rs rt imm s

theorem isLoad_lb : IsLoad .lb .byte (signExtendRead .byte) := fun _ _ _ _ => rfl
theorem isLoad_lbu : IsLoad .lbu .byte (zeroExtendRead .byte) := fun _ _ _ _ => rfl
theorem isLoad_lhw : IsLoad .lhw .half (signExtendRead .half) := fun _ _ _ _ => rfl
theorem isLoad_lhwu : IsLoad .lhwu .half (zeroExtendRead .half) := fun _ _ _ _ => rfl
theorem isLoad_lw : IsLoad .lw .word (zeroExtendRead .word) := fun _ _ _ _ => rfl

section Load

variable {mk : RegIdx → RegIdx → Imm → Instr} {n : Width} {widen : Word → Word} {rs rt : RegIdx} {imm : Imm}
  {s s' : State}

/-- A load whose read answers a value writes it, widened (R181). -/
theorem IsLoad.exec_of_ok (h : IsLoad mk n widen) (hrt : rt ≠ 0#5) {v : Word}
    (hread : memRead s n (effectiveAddress s rs imm) = (.ok v, s')) :
    exec (mk rs rt imm) s = .next (s'.writeReg rt (widen v)) := by
  rw [h, load, zeroTest_pass rt _ _ _ hrt, hread, finishLoad]

/-- A load whose read raises a condition stops with it and writes no register (R181). -/
theorem IsLoad.exec_of_error (h : IsLoad mk n widen) (hrt : rt ≠ 0#5) {c : FatalCondition}
    (hread : memRead s n (effectiveAddress s rs imm) = (.error c, s')) :
    exec (mk rs rt imm) s = .next (s'.raise c) := by
  rw [h, load, zeroTest_pass rt _ _ _ hrt, hread, finishLoad]

theorem IsLoad.loadResult (h : IsLoad mk n widen) {f : (Nat → Byte) → Word}
    (hf : ∀ m : Nat → Byte, widen (assembleBytes ((List.range n.bytes).map m)) = f m) : LoadResult mk n f := by
  intro rs rt imm s r d hrt hreach
  refine ⟨_, h.exec_of_ok hrt (memRead_reaches s n _ r d hreach), ?_⟩
  rw [← hf]
  exact onlyReg_writeReg s rt _ hrt

theorem IsLoad.unmapped (h : IsLoad mk n widen) (hrt : rt ≠ 0#5)
    (hresolve : resolve s.regions (effectiveAddress s rs imm) = none) :
    StopsWith (mk rs rt imm) s (.unmappedAddress (effectiveAddress s rs imm)) :=
  ⟨_, h.exec_of_error hrt (memRead_unmapped hresolve n), onlyStatus_raise s _⟩

theorem IsLoad.outOfBounds (h : IsLoad mk n widen) (hrt : rt ≠ 0#5) {r : Region} {d : MemoryDevice}
    (hresolve : resolve s.regions (effectiveAddress s rs imm) = some r) (hd : r.device = .memory d)
    (hsize : d.size < (r.translate (effectiveAddress s rs imm)).toNat + n.bytes) :
    StopsWith (mk rs rt imm) s (.outOfBounds (r.translate (effectiveAddress s rs imm))) :=
  ⟨_, h.exec_of_error hrt (memRead_outOfBounds hresolve hd hsize), onlyStatus_raise s _⟩

/-- A load from any other device, by what it answers to the one read it is asked (R42, R181). -/
theorem IsLoad.other (h : IsLoad mk n widen) (hrt : rt ≠ 0#5) {r : Region} {id : Nat} {history : List DeviceOp}
    {front back : List Region} (hregions : s.regions = front ++ r :: back) (hd : r.device = .other id history)
    (hfront : ∀ q ∈ front, q.covers (effectiveAddress s rs imm) = false)
    (hr : r.covers (effectiveAddress s rs imm) = true) {l : Word}
    (hl : l = r.translate (effectiveAddress s rs imm)) :
    ∃ t u, exec (mk rs rt imm) s = .next t ∧
      OnlyRegions s u (front ++ { r with device := .other id (history ++ [.read n l]) } :: back) ∧
      match otherAnswer id history (.read n l) with
      | .error .outOfBounds => OnlyStatus u t (.fault (.outOfBounds l))
      | .error .unsupportedOperation => OnlyStatus u t (.fault (.unsupportedOperation (opName (.read n l)) l))
      | .ok bs => bs.length = n.bytes ∧ OnlyReg u t rt (widen (assembleBytes bs)) := by
  subst hl
  cases hanswer : otherAnswer id history (.read n (r.translate (effectiveAddress s rs imm))) with
  | error e =>
    have hread := memRead_other_error hregions hd hfront hr hanswer
    refine ⟨_, _, h.exec_of_error hrt hread, onlyRegions_setRegions s _, ?_⟩
    cases e <;> exact onlyStatus_raise _ _
  | ok bs =>
    have hread := memRead_other_ok hregions hd hfront hr hanswer
    exact ⟨_, _, h.exec_of_ok hrt hread, onlyRegions_setRegions s _, otherAnswer_read_length hanswer,
      onlyReg_writeReg _ rt _ hrt⟩

end Load

/-! ### Stores -/

/-- `mk` makes a store of width `n`. -/
def IsStore (mk : RegIdx → RegIdx → Imm → Instr) (n : Width) : Prop :=
  ∀ rs rt imm s, exec (mk rs rt imm) s = store n rs rt imm s

theorem isStore_sb : IsStore .sb .byte := fun _ _ _ _ => rfl
theorem isStore_shw : IsStore .shw .half := fun _ _ _ _ => rfl
theorem isStore_sw : IsStore .sw .word := fun _ _ _ _ => rfl

section Store

variable {mk : RegIdx → RegIdx → Imm → Instr} {n : Width} {rs rt : RegIdx} {imm : Imm} {s s' : State}

/-- A store whose write raises nothing is that write (R187). -/
theorem IsStore.exec_of_none (h : IsStore mk n)
    (hwrite : memWrite s n (effectiveAddress s rs imm) (s.readReg rt) = (none, s')) :
    exec (mk rs rt imm) s = .next s' := by
  rw [h, store, hwrite, finishStore]

/-- A store whose write raises a condition stops with it (R187). -/
theorem IsStore.exec_of_some (h : IsStore mk n) {c : FatalCondition}
    (hwrite : memWrite s n (effectiveAddress s rs imm) (s.readReg rt) = (some c, s')) :
    exec (mk rs rt imm) s = .next (s'.raise c) := by
  rw [h, store, hwrite, finishStore]

theorem IsStore.storeResult (h : IsStore mk n) {f : Word → Nat → Byte}
    (hf : ∀ v i (hi : i < (splitBytes n v).length), (splitBytes n v)[i] = f v i) : StoreResult mk n f := by
  intro rs rt imm s r d hs hreach
  obtain ⟨front, back, hregions, hfront, hwrite⟩ := memWrite_reaches s n _ (s.readReg rt) r d hreach
  have hwf := hreach.mem_wf hs
  refine ⟨_, _, front, back, h.exec_of_none hwrite, hregions, hfront, onlyRegions_setRegions s _,
    hreach.replace front back _ hfront rfl, rfl, fun i hi => ?_, fun k hk => ?_, fun a => ?_, fun a q hq hne => ?_⟩
  · rw [← splitBytes_length n (s.readReg rt)] at hi
    exact (Memory.read_writeBytes_inside hwf _ hi).trans (hf _ i hi)
  · rw [← splitBytes_length n (s.readReg rt)] at hk
    exact Memory.read_writeBytes_outside hwf hk
  · exact peekByte_memWrite_outside hs hreach hwrite
  · rw [hregions] at hq
    exact resolve_replace_other _ hq hne

theorem IsStore.unmapped (h : IsStore mk n) (hresolve : resolve s.regions (effectiveAddress s rs imm) = none) :
    StopsWith (mk rs rt imm) s (.unmappedAddress (effectiveAddress s rs imm)) :=
  ⟨_, h.exec_of_some (memWrite_unmapped hresolve n _), onlyStatus_raise s _⟩

theorem IsStore.outOfBounds (h : IsStore mk n) {r : Region} {d : MemoryDevice}
    (hresolve : resolve s.regions (effectiveAddress s rs imm) = some r) (hd : r.device = .memory d)
    (hsize : d.size < (r.translate (effectiveAddress s rs imm)).toNat + n.bytes) :
    StopsWith (mk rs rt imm) s (.outOfBounds (r.translate (effectiveAddress s rs imm))) :=
  ⟨_, h.exec_of_some (memWrite_outOfBounds hresolve hd hsize _), onlyStatus_raise s _⟩

/-- A store to any other device, by what it answers to the one write it is given (R42, R187). -/
theorem IsStore.other (h : IsStore mk n) {r : Region} {id : Nat} {history : List DeviceOp}
    {front back : List Region} (hregions : s.regions = front ++ r :: back) (hd : r.device = .other id history)
    (hfront : ∀ q ∈ front, q.covers (effectiveAddress s rs imm) = false)
    (hr : r.covers (effectiveAddress s rs imm) = true) {l : Word} {data : List Byte}
    (hl : l = r.translate (effectiveAddress s rs imm)) (hdata : data = splitBytes n (s.readReg rt)) :
    ∃ t u, exec (mk rs rt imm) s = .next t ∧
      OnlyRegions s u (front ++ { r with device := .other id (history ++ [.write n l data]) } :: back) ∧
      match otherAnswer id history (.write n l data) with
      | .error .outOfBounds => OnlyStatus u t (.fault (.outOfBounds l))
      | .error .unsupportedOperation => OnlyStatus u t (.fault (.unsupportedOperation (opName (.write n l data)) l))
      | .ok _ => t = u := by
  subst hl hdata
  cases hanswer : otherAnswer id history (.write n (r.translate (effectiveAddress s rs imm))
      (splitBytes n (s.readReg rt))) with
  | error e =>
    have hwrite := memWrite_other_error hregions hd hfront hr hanswer
    refine ⟨_, _, h.exec_of_some hwrite, onlyRegions_setRegions s _, ?_⟩
    cases e <;> exact onlyStatus_raise _ _
  | ok bs =>
    have hwrite := memWrite_other_ok hregions hd hfront hr hanswer
    exact ⟨_, _, h.exec_of_none hwrite, onlyRegions_setRegions s _, rfl⟩

end Store

/-- A well-formed instruction has a tested field other than 0, if it has one. -/
theorem ne_zero_of_wellFormed {i : Instr} {field : RegIdx} (hi : i.testedField = some field)
    (hw : i.wellFormed = true) : field ≠ 0#5 := by
  rintro rfl
  rw [(wellFormed_eq_false_iff i).2 hi] at hw
  cases hw

end Sys2Proof.Machine

namespace Sys2Proof.Proofs

open Sys2Proof Sys2Proof.Machine

/-- Settles O42: the five loads differ in how the bytes read are widened. -/
theorem loadResults : Obligations.LoadResults :=
  ⟨effectiveAddressRule,
   isLoad_lb.loadResult fun m => signExtendRead_byte (m 0),
   isLoad_lbu.loadResult fun m => zeroExtendRead_byte (m 0),
   isLoad_lhw.loadResult fun m => signExtendRead_half (m 0) (m 1),
   isLoad_lhwu.loadResult fun m => zeroExtendRead_half (m 0) (m 1),
   isLoad_lw.loadResult fun m => zeroExtendRead_word (m 0) (m 1) (m 2) (m 3)⟩

/-- Settles O43: the three stores differ in the bytes they write. -/
theorem storeResults : Obligations.StoreResults := by
  refine ⟨effectiveAddressRule, isStore_sb.storeResult fun v i hi => ?_, isStore_shw.storeResult fun v i hi => ?_,
    isStore_sw.storeResult fun v i hi => ?_⟩
  all_goals
    simp only [splitBytes, List.length_cons, List.length_nil] at hi
    interval_cases i <;> rfl

/-- Settles O44: the access itself raises the condition and changes nothing. -/
theorem unmappedAccessStops : Obligations.UnmappedAccessStops := by
  refine ⟨effectiveAddressRule, fun mk hmk rs rt imm s hrt h => ?_, fun mk hmk rs rt imm s h => ?_⟩
  · fin_cases hmk
    exacts [isLoad_lb.unmapped hrt h, isLoad_lbu.unmapped hrt h, isLoad_lhw.unmapped hrt h,
      isLoad_lhwu.unmapped hrt h, isLoad_lw.unmapped hrt h]
  · fin_cases hmk
    exacts [isStore_sb.unmapped h, isStore_shw.unmapped h, isStore_sw.unmapped h]

/-- Settles O45: the device refuses the whole access, a write too. -/
theorem outOfBoundsAccessStops : Obligations.OutOfBoundsAccessStops := by
  intro p hp rs rt imm s r d hw h hd hsize
  fin_cases hp
  · exact isLoad_lb.outOfBounds (ne_zero_of_wellFormed rfl hw) h hd hsize
  · exact isLoad_lbu.outOfBounds (ne_zero_of_wellFormed rfl hw) h hd hsize
  · exact isLoad_lhw.outOfBounds (ne_zero_of_wellFormed rfl hw) h hd hsize
  · exact isLoad_lhwu.outOfBounds (ne_zero_of_wellFormed rfl hw) h hd hsize
  · exact isLoad_lw.outOfBounds (ne_zero_of_wellFormed rfl hw) h hd hsize
  · exact isStore_sb.outOfBounds h hd hsize
  · exact isStore_shw.outOfBounds h hd hsize
  · exact isStore_sw.outOfBounds h hd hsize

/-- Settles O46: the five loads are one rule at three widths, with a widening each. -/
theorem otherDeviceLoad : Obligations.OtherDeviceLoad := by
  intro p hp rs rt imm s hrt r id history front back hregions hd hfront hr l hl
  fin_cases hp
  · exact isLoad_lb.other hrt hregions hd hfront hr hl
  · exact isLoad_lbu.other hrt hregions hd hfront hr hl
  · exact isLoad_lhw.other hrt hregions hd hfront hr hl
  · exact isLoad_lhwu.other hrt hregions hd hfront hr hl
  · exact isLoad_lw.other hrt hregions hd hfront hr hl

/-- Settles O47: the three stores are one rule at three widths. -/
theorem otherDeviceStore : Obligations.OtherDeviceStore := by
  intro p hp rs rt imm s r id history front back hregions hd hfront hr l data hl hdata
  fin_cases hp
  · exact isStore_sb.other hregions hd hfront hr hl hdata
  · exact isStore_shw.other hregions hd hfront hr hl hdata
  · exact isStore_sw.other hregions hd hfront hr hl hdata

/-- Settles O49: the write reaches the bytes the next fetch reads. -/
theorem storedWordIsExecuted : Obligations.StoredWordIsExecuted := by
  intro rs rt imm s t r d i hs hrunning haddress hreach hexec hdecode
  obtain ⟨s', hwrite, hread⟩ := memRead_memWrite_reaches s .word s.pc (s.readReg rt) r d hs hreach
  have honly := memWrite_onlyRegions hwrite
  rw [← haddress] at hwrite
  cases hexec.symm.trans (isStore_sw.exec_of_none hwrite)
  rw [assemble_split_word, ← honly.pc] at hread
  rw [step_of_decode_ok (honly.status.trans hrunning) hread hdecode, honly.pc]

end Sys2Proof.Proofs
end

section
/-! A word placed at pc is what the next step runs (70_reset_and_hazards.md R282, R284; log 7). -/

namespace Sys2Proof.Machine

/-- What placing `w` in `s` has to leave: a machine that fetches `w`, is running, meets the invariant, and is `s` but
for the four bytes at pc. -/
structure Placed (s u : State) (w : Word) : Prop where
  fetch : fetch u = (.ok w, u)
  wf : u.wf
  status : u.status = .running
  pc : u.pc = s.pc
  regs : u.regs = s.regs
  hi : u.hi = s.hi
  lo : u.lo = s.lo
  memory : ∀ a : Word, a.toNat < s.pc.toNat ∨ s.pc.toNat + 4 ≤ a.toNat → peekByte u.regions a = peekByte s.regions a

/-! ### Into the Memory Device at pc -/

theorem Placed.of_memWrite {s : State} {r : Region} {d : MemoryDevice} (hs : s.wf) (h : Reaches s .word s.pc r d)
    (w : Word) : Placed s (memWrite (s.setStatus .running) .word s.pc w).2 w := by
  have hreach : Reaches (s.setStatus .running) .word s.pc r d := ⟨h.resolves, h.memory, h.inside⟩
  obtain ⟨u, hwrite, hread⟩ := memRead_memWrite_reaches (s.setStatus .running) .word s.pc w r d hs hreach
  have honly := memWrite_onlyRegions hwrite
  have hfetch : Machine.fetch u = (.ok w, u) := by
    rw [assemble_split_word] at hread
    rw [Machine.fetch, honly.pc, State.setStatus_pc, hread]
  rw [hwrite]
  exact ⟨hfetch, (memWrite_keeps hwrite).wf hs, honly.status, honly.pc, honly.regs, honly.hi, honly.lo,
    fun a => peekByte_memWrite_outside (s := s.setStatus .running) hs hreach hwrite⟩

/-! ### Over whatever else pc resolves to -/

/-- The fresh Memory Device that holds one word. -/
def wordDevice (w : Word) : MemoryDevice := { size := 4, mem := Memory.writeBytes [] 0 (splitBytes .word w) }

theorem wordDevice_mem_wf (w : Word) : (wordDevice w).mem.wf :=
  Memory.writeBytes_wf [] 0 _ ⟨List.Pairwise.nil, List.forall_mem_nil _⟩

theorem wordDevice_wf (w : Word) : Device.wf (.memory (wordDevice w)) := by
  refine ⟨wordDevice_mem_wf w, fun c hc => ?_⟩
  rcases Memory.mem_writeBytes [] 0 (splitBytes .word w) c hc with hc | ⟨-, hc⟩
  · cases hc
  · rwa [splitBytes_length, Nat.zero_add] at hc

/-- The device reads as its word. -/
theorem assemble_wordDevice (w : Word) : assembleBytes ((wordDevice w).mem.readBytes 0 4) = w := by
  have hbytes : (wordDevice w).mem.readBytes 0 4 = splitBytes .word w :=
    Memory.readBytes_writeBytes_self [] 0 (splitBytes .word w) ⟨List.Pairwise.nil, List.forall_mem_nil _⟩
  rw [hbytes, assemble_split_word]

/-- The overlay ends three bytes on, or at the top of the space. -/
theorem toNat_wordEnd (a : Word) : (wordEnd a).toNat = min (a.toNat + 3) 0xFFFFFFFF := by
  unfold wordEnd
  split
  · bv_omega
  · bv_omega

/-- An address that the overlay does not cover resolves as before. -/
theorem resolve_overlay_outside (s : State) (dev : Device) {start a : Word} (remap : Bool)
    (ha : a.toNat < start.toNat ∨ start.toNat + 4 ≤ a.toNat) :
    resolve (s.mapRegion dev start (wordEnd start) remap).2.regions a = resolve s.regions a := by
  rw [resolve_mapRegion, if_neg]
  rw [toNat_wordEnd]
  omega

theorem Placed.of_overlay {s : State} (hs : s.wf) (w : Word) :
    Placed s ((s.setStatus .running).mapRegion (.memory (wordDevice w)) s.pc (wordEnd s.pc) true).2 w := by
  have hresolve := resolve_mapRegion (s.setStatus .running) (.memory (wordDevice w)) s.pc (wordEnd s.pc) s.pc true
  have hcovers : s.pc.toNat ≤ s.pc.toNat ∧ s.pc.toNat ≤ (wordEnd s.pc).toNat := by
    have := s.pc.isLt
    rw [toNat_wordEnd]
    omega
  rw [if_pos hcovers] at hresolve
  have hlocal : (s.pc - s.pc).toNat = 0 := by rw [BitVec.sub_self]; rfl
  have hfetch := memRead_reaches _ .word s.pc _ (wordDevice w)
    ⟨hresolve, rfl, by simp [Region.translate, Width.bytes, wordDevice]⟩
  simp only [Region.translate, if_true, hlocal, Width.bytes, assemble_wordDevice] at hfetch
  have hwf := State.mapRegion_wf (s := s.setStatus .running) hs (wordDevice_wf w) s.pc (wordEnd s.pc) true
  refine ⟨hfetch, hwf, rfl, rfl, rfl, rfl, rfl, fun a ha => ?_⟩
  rw [peekByte_eq, peekByte_eq, resolve_overlay_outside _ _ true ha, State.setStatus_regions]

theorem State.placeWord_placed {s : State} (hs : s.wf) (w : Word) : Placed s (s.placeWord w) w := by
  rcases State.placeWord_cases s w with ⟨r, d, hreach, hplace⟩ | hplace <;> rw [hplace]
  · exact .of_memWrite hs hreach w
  · exact .of_overlay hs w

theorem State.withFetchWord_toNat (s : State) (w : Word) : s.withFetchWord 32 w.toNat = s.placeWord w := by
  rw [State.withFetchWord, ofNat_toNat_mod]

end Sys2Proof.Machine

namespace Sys2Proof.Proofs

open Sys2Proof Sys2Proof.Machine

/-- Settles O19: wherever the word is placed, the next fetch answers it. -/
theorem placedWordRunsNext : Obligations.PlacedWordRunsNext := by
  intro s w i hs hdecode u hu
  rw [State.withFetchWord_toNat] at hu
  subst hu
  have hplaced := State.placeWord_placed hs w
  have hstep := step_of_decode_ok hplaced.status hplaced.fetch hdecode
  rw [hplaced.pc] at hstep
  exact ⟨hstep, hplaced.wf, hplaced.status, hplaced.pc, hplaced.regs, hplaced.hi, hplaced.lo, hplaced.memory⟩

end Sys2Proof.Proofs
end

section
/-! Division (42_muldiv_hilo.md R143 to R145, 60_exceptions.md R256). -/

namespace Sys2Proof.Machine

/-! ### The three ways DIV and DIVU end -/

/-- A write of lo and then of hi (R143, R144). -/
theorem onlyHiLo_setLo_setHi (s : State) (hi lo : Word) : OnlyHiLo s ((s.setLo lo).setHi hi) hi lo :=
  (onlyHiLo_setLo s lo).trans (onlyHiLo_setHi _ hi)

/-- A zero divisor stops the instruction, past the test on `rd` (R256). -/
theorem stopsWith_divideByZero {i : Instr} {s : State} {rd rt : RegIdx} {body : Result}
    (h : exec i s = zeroTest rd i s
      (if s.readReg rt = 0#32 then .next (s.raise (.divideByZero (encode i))) else body))
    (hd : rd ≠ 0#5) (hrt : s.readReg rt = 0#32) : StopsWith i s (.divideByZero (encode i)) :=
  ⟨_, (exec_past_zeroTest h hd).trans (if_pos hrt), onlyStatus_raise s _⟩

/-! ### Unsigned division -/

/-- The dividend is quotient times divisor plus remainder, and the remainder is below the divisor (R144). -/
theorem unsignedDivide_spec {a b : Word} (hb : b ≠ 0#32) :
    a.toNat = (unsignedDivide a b).1.toNat * b.toNat + (unsignedDivide a b).2.toNat ∧
      (unsignedDivide a b).2.toNat < b.toNat := by
  have hpos : 0 < b.toNat := Nat.pos_of_ne_zero fun h => hb (BitVec.eq_of_toNat_eq h)
  have hle : a.toNat / b.toNat * b.toNat ≤ a.toNat := Nat.div_mul_le_self _ _
  have hprod : (a / b * b).toNat = a.toNat / b.toNat * b.toNat := by
    rw [BitVec.toNat_mul, BitVec.toNat_udiv, Nat.mod_eq_of_lt (hle.trans_lt a.isLt)]
  have hrem : (a - a / b * b).toNat = a.toNat % b.toNat := by
    rw [BitVec.toNat_sub_of_le (BitVec.le_def.2 (hprod ▸ hle)), hprod, Nat.mod_eq_sub_div_mul]
  simp only [unsignedDivide, hrem, BitVec.toNat_udiv]
  exact ⟨(Nat.div_add_mod' a.toNat b.toNat).symm, Nat.mod_lt _ hpos⟩

/-! ### Signed division -/

/-- A remainder that is not 0 has the dividend's sign (D10). -/
theorem tmod_eq_zero_or_neg_iff (x y : Int) : x.tmod y = 0 ∨ (x.tmod y < 0 ↔ x < 0) := by
  by_cases hdvd : y ∣ x
  · exact .inl (Int.tmod_eq_zero_of_dvd hdvd)
  · have hsign := Int.sign_tmod x y
    rw [if_neg hdvd] at hsign
    exact .inr (by rw [← Int.sign_eq_neg_one_iff_neg, hsign, Int.sign_eq_neg_one_iff_neg])

/-- Outside the overflowing case the quotient rounded toward zero is a word's signed reading. -/
theorem toInt_ofInt_tdiv {a b : Word} (h : ¬ (a = 0x80000000#32 ∧ b = 0xFFFFFFFF#32)) :
    (BitVec.ofInt 32 (a.toInt.tdiv b.toInt)).toInt = a.toInt.tdiv b.toInt := by
  have hdiv := BitVec.toInt_sdiv_of_ne_or_ne a b (Decidable.not_and_iff_not_or_not.1 h)
  rw [← hdiv, BitVec.ofInt_toInt]

/-- The remainder always is. -/
theorem toInt_ofInt_tmod (a b : Word) : (BitVec.ofInt 32 (a.toInt.tmod b.toInt)).toInt = a.toInt.tmod b.toInt := by
  rw [← BitVec.toInt_srem, BitVec.ofInt_toInt]

/-- What DIV leaves in hi is the remainder of the division that rounds toward zero. -/
theorem sub_tdiv_mul_eq_tmod (x y : Int) : x - x.tdiv y * y = x.tmod y := by
  rw [Int.tmod_def, Int.mul_comm]

end Sys2Proof.Machine

namespace Sys2Proof.Proofs

open Sys2Proof Sys2Proof.Machine

/-- Settles O36: past the test on `rd`, both look at the divisor first. -/
theorem divideByZeroStops : Obligations.DivideByZeroStops := by
  intro rs rt rd shamt s hd hrt
  exact ⟨stopsWith_divideByZero (exec_div rs rt rd shamt s) hd hrt,
    stopsWith_divideByZero (exec_divu rs rt rd shamt s) hd hrt⟩

/-- Settles O35, by the two tests DIVU makes first. -/
theorem divuResult : Obligations.DivuResult := by
  intro rs rt rd shamt s
  have hexec := exec_divu rs rt rd shamt s
  refine ⟨fun hd hrt => ?_, fun hd hrt => ⟨_, stopsWith_divideByZero hexec hd hrt⟩, ?_⟩
  · rw [exec_past_zeroTest hexec hd, if_neg hrt]
    exact ⟨_, _, _, rfl, onlyHiLo_setLo_setHi s _ _, unsignedDivide_spec hrt⟩
  · rintro rfl
    exact ⟨_, stopsWith_of_zeroTest hexec⟩

/-- Settles O34: quotient and remainder of the division that rounds toward zero, both in range but in one case. -/
theorem divResult : Obligations.DivResult := by
  intro rs rt rd shamt s hd hrt
  rw [exec_past_zeroTest (exec_div rs rt rd shamt s) hd, if_neg hrt]
  generalize s.readReg rs = a
  generalize s.readReg rt = b at hrt ⊢
  refine ⟨_, _, _, rfl, onlyHiLo_setLo_setHi s _ _, ?_⟩
  rw [sub_tdiv_mul_eq_tmod]
  split
  · rename_i h
    obtain ⟨rfl, rfl⟩ := h
    exact ⟨by decide, by decide⟩
  · rename_i h
    have hb : b.toInt ≠ 0 := fun hb => hrt (BitVec.eq_of_toInt_eq hb)
    rw [toInt_ofInt_tdiv h, toInt_ofInt_tmod, Int.natAbs_tmod]
    exact ⟨(Int.tdiv_mul_add_tmod a.toInt b.toInt).symm, Nat.mod_lt _ (Int.natAbs_pos.2 hb),
      tmod_eq_zero_or_neg_iff a.toInt b.toInt⟩

end Sys2Proof.Proofs
end

section
/-! Branches, jumps, SYSCALL and the refused classes (45_branch_jump.md R200 to R214, 46_system.md R230 to R238). -/

namespace Sys2Proof.Machine

/-! ### The conditions a branch tests (R202 to R209) -/

theorem isNegative_iff (v : Word) : isNegative v = true ↔ v.toInt < 0 := by
  simp [isNegative, lessSigned, BitVec.slt_iff_toInt_lt]

theorem isPositive_iff (v : Word) : isPositive v = true ↔ 0 < v.toInt := by
  simp [isPositive, lessSigned, BitVec.slt_iff_toInt_lt]

theorem isNotPositive_iff (v : Word) : isNotPositive v = true ↔ v.toInt ≤ 0 := by
  have hzero : v = 0#32 ↔ v.toInt = 0 := BitVec.toInt_inj.symm
  rw [isNotPositive, Bool.or_eq_true, isNegative_iff, beq_iff_eq, hzero, le_iff_lt_or_eq]

/-- BGEZ and BGEZAL at the default of `BGEZ_TAKEN_AT_ZERO` (log 9). -/
theorem bgezTaken_iff (v : Word) : bgezTaken Config.bgezTakenAtZero v = true ↔ 0 < v.toInt := by
  rw [← isPositive_iff, bgezTaken, Config.bgezTakenAtZero, Bool.false_and, Bool.or_false]

/-! ### Writes of pc -/

theorem onlyPc_setPc (s : State) (v : Word) : OnlyPc s (s.setPc v) v where
  newPc := rfl
  regs := rfl
  hi := rfl
  lo := rfl
  status := rfl
  regions := rfl
  handles := rfl

/-- A branch taken goes to pc plus the signed reading of the immediate (R200). -/
theorem onlyPc_branch_taken (s : State) (imm : Imm) :
    OnlyPc s (branch true imm s) (BitVec.ofInt 32 ((s.pc.toNat : Int) + imm.toInt)) := by
  rw [← add_signExtendImm]
  exact onlyPc_setPc s _

/-- A branch not taken changes nothing (R200). -/
theorem onlyPc_branch_not_taken (s : State) (imm : Imm) : OnlyPc s (branch false imm s) s.pc :=
  onlyPc_setPc s s.pc

/-- A branch, by the condition that its flag stands for. -/
theorem onlyPc_branch {taken : Bool} {cond : Prop} (h : taken = true ↔ cond) (s : State) (imm : Imm) :
    (cond → OnlyPc s (branch taken imm s) (BitVec.ofInt 32 ((s.pc.toNat : Int) + imm.toInt))) ∧
      (¬ cond → OnlyPc s (branch taken imm s) s.pc) := by
  cases taken with
  | true => exact ⟨fun _ => onlyPc_branch_taken s imm, fun hcond => absurd (h.1 rfl) hcond⟩
  | false => exact ⟨fun hcond => absurd (h.2 hcond) Bool.false_ne_true, fun _ => onlyPc_branch_not_taken s imm⟩

theorem BranchResult.of_branch {mk : RegIdx → RegIdx → Imm → Instr} {taken : Word → Word → Bool}
    {cond : Word → Word → Prop} (htaken : ∀ a b, taken a b = true ↔ cond a b)
    (h : ∀ rs rt imm s, exec (mk rs rt imm) s = .next (branch (taken (s.readReg rs) (s.readReg rt)) imm s)) :
    BranchResult mk cond :=
  fun rs rt imm s => ⟨_, h rs rt imm s, onlyPc_branch (htaken _ _) s imm⟩

/-! ### The link write (R201) -/

theorem onlyReg_link (s : State) : OnlyReg s (link s) 31#5 (s.pc + 4#32) :=
  onlyReg_writeReg s 31#5 _ (by decide)

theorem link_readReg_eq_linkedValue (s : State) (rs : RegIdx) : (link s).readReg rs = linkedValue s rs :=
  link_readReg s rs

/-- A linking branch tests `x[rs]` after the link write, which leaves pc alone. -/
theorem LinkBranchResult.of_branch {mk : RegIdx → Imm → Instr} {taken : Word → Bool} {cond : Word → Prop}
    (htaken : ∀ v, taken v = true ↔ cond v)
    (h : ∀ rs imm s, exec (mk rs imm) s = .next (branch (taken ((link s).readReg rs)) imm (link s))) :
    LinkBranchResult mk cond := by
  intro rs imm s
  rw [← link_readReg_eq_linkedValue]
  exact ⟨_, link s, h rs imm s, onlyReg_link s, onlyPc_branch (htaken _) (link s) imm⟩

/-! ### Jumps (R210) -/

/-- The target is the top four bits of pc, the pseudo-address and two bits of 0, side by side. -/
theorem jumpTarget_eq_append (pc : Word) (target : Target) :
    jumpTarget pc target = pc.extractLsb' 28 4 ++ target ++ 0#2 := by
  apply BitVec.eq_of_getLsbD_eq
  intro k hk
  simp only [jumpTarget, BitVec.getLsbD_append, BitVec.getLsbD_or, BitVec.getLsbD_and, BitVec.getLsbD_extractLsb']
  interval_cases k <;> simp

/-- Two values set side by side: the left one times the range of the right one, plus the right one. -/
theorem toNat_append_eq_add {m n : Nat} (x : BitVec m) (y : BitVec n) :
    (x ++ y).toNat = x.toNat * 2 ^ n + y.toNat := by
  rw [BitVec.toNat_append, ← Nat.shiftLeft_add_eq_or_of_lt y.isLt, Nat.shiftLeft_eq]

theorem toNat_jumpTarget (pc : Word) (target : Target) :
    (jumpTarget pc target).toNat = pc.toNat / 2 ^ 28 * 2 ^ 28 + target.toNat * 4 := by
  have hpc := pc.isLt
  rw [jumpTarget_eq_append, toNat_append_eq_add, toNat_append_eq_add, BitVec.extractLsb'_toNat,
    Nat.shiftRight_eq_div_pow, BitVec.toNat_ofNat]
  omega

end Sys2Proof.Machine

namespace Sys2Proof.Proofs

open Sys2Proof Sys2Proof.Machine

/-- Settles O53: the six branches differ in the condition alone. -/
theorem branchResults : Obligations.BranchResults :=
  ⟨.of_branch (taken := fun a b => a == b) (fun _ _ => beq_iff_eq) fun _ _ _ _ => rfl,
   .of_branch (taken := fun a b => a != b) (fun _ _ => bne_iff_ne) fun _ _ _ _ => rfl,
   .of_branch (taken := fun a _ => isNotPositive a) (fun a _ => isNotPositive_iff a) fun _ _ _ _ => rfl,
   .of_branch (taken := fun a _ => isPositive a) (fun a _ => isPositive_iff a) fun _ _ _ _ => rfl,
   .of_branch (taken := fun a _ => isNegative a) (fun a _ => isNegative_iff a) fun _ _ _ _ => rfl,
   .of_branch (taken := fun a _ => bgezTaken Config.bgezTakenAtZero a) (fun a _ => bgezTaken_iff a)
     fun _ _ _ _ => rfl⟩

/-- Settles O54: the condition is tested in the state the link write leaves. -/
theorem linkingBranchResults : Obligations.LinkingBranchResults :=
  ⟨.of_branch isNegative_iff fun _ _ _ => rfl, .of_branch bgezTaken_iff fun _ _ _ => rfl⟩

/-- Settles O55: both write the one target; JAL links first. -/
theorem jumpResults : Obligations.JumpResults := by
  intro target s
  exact ⟨⟨_, _, rfl, onlyPc_setPc s _, toNat_jumpTarget s.pc target⟩,
    ⟨_, link s, _, rfl, onlyReg_link s, onlyPc_setPc (link s) _, toNat_jumpTarget s.pc target⟩⟩

/-- Settles O56: JR and JALR are one rule, the test on `rd` and a write of pc. -/
theorem registerJumpResults : Obligations.RegisterJumpResults := by
  intro mk hmk rs rt rd shamt s
  have hexec : exec (mk rs rt rd shamt) s = zeroTest rd (mk rs rt rd shamt) s (.next (s.setPc (s.readReg rs))) := by
    fin_cases hmk <;> rfl
  constructor
  · intro hd
    exact ⟨_, exec_past_zeroTest hexec hd, onlyPc_setPc s _⟩
  · rintro rfl
    exact stopsWith_of_zeroTest hexec

/-- Settles O57: the code is 10 for one triple of field numbers alone. -/
theorem syscallResult : Obligations.SyscallResult := by
  intro rs rt rd shamt s
  rw [← syscallCode_eq_ten_iff]
  refine ⟨_, rfl, fun hcode => ?_, fun hcode => if_neg hcode⟩
  rw [if_pos hcode]
  exact ⟨rfl, rfl, rfl, rfl, rfl, rfl, rfl⟩

/-- Settles O58: the 16 opcodes share one rule. -/
theorem refusedClassesStop : Obligations.RefusedClassesStop := by
  intro f hf bits s
  have hexec : exec (f bits) s = refuseClass (f bits) s := by
    fin_cases hf <;> rfl
  exact ⟨_, hexec, onlyStatus_raise s _⟩

end Sys2Proof.Proofs
end
